-- ==== Sys2Proof/Word.lean ====
section
/-! DEFINITION. The machine's one word: a byte (R10, R11, R18). Registers, memory cells, addresses and the program
counter are all 8 bits wide, and every increment wraps modulo 256, as `BitVec 8` addition does. -/

namespace Sys2Proof

/-- An unsigned 8-bit value: a register, a memory cell, an address, an operand byte (R10, R11). -/
abbrev Byte := BitVec 8

end Sys2Proof
end

