-- ==== Sys2Proof/Syntax.lean ====
section
/-! DEFINITION. The syntax of the instruction set: register names (R32), formats (R91), the 22 opcodes (R96) and the
instructions, one constructor per row of spec/opcode_table.json. An operand is the byte that stands in the instruction;
a byte in a register position need not be a legal register code (WellFormed.lean), because the hardware executes such an
instruction too: it faults `InvalidRegisterCode` (R95, R104). -/

namespace Sys2Proof

/-- The general registers, a closed enumeration (R12, R30). -/
inductive Reg where
  | r0 | r1 | r2
  deriving DecidableEq, Repr

/-- The seven instruction formats (R29, R91). -/
inductive Format where
  /-- opcode only -/
  | n
  /-- opcode, register -/
  | r
  /-- opcode, jump target -/
  | t
  /-- opcode, register, immediate -/
  | ri
  /-- opcode, register, register -/
  | rr
  /-- opcode, register, memory address -/
  | rm
  /-- opcode, memory address, register -/
  | mr
  deriving DecidableEq, Repr

/-- The 22 opcodes by name: a mnemonic with its operand shape (R96). -/
inductive Op where
  | movRegImm | movRegReg | movRegMem | movMemReg
  | addRegImm | addRegReg | addRegMem
  | subRegImm | subRegReg | subRegMem
  | incReg | decReg
  | outReg
  | jmp
  | cmpRegImm | cmpRegReg | cmpRegMem
  | je | jne | jg | jl
  | hlt
  deriving DecidableEq, Repr

/-- The instructions (R96). Arguments are the operand bytes in the order they stand in memory: `d` and `s` in a register
position, `i` an immediate, `m` a memory address, `t` a jump target (R91). -/
inductive Instr where
  | movRegImm (d i : Byte)
  | movRegReg (d s : Byte)
  | movRegMem (d m : Byte)
  | movMemReg (m s : Byte)
  | addRegImm (d i : Byte)
  | addRegReg (d s : Byte)
  | addRegMem (d m : Byte)
  | subRegImm (d i : Byte)
  | subRegReg (d s : Byte)
  | subRegMem (d m : Byte)
  | incReg (d : Byte)
  | decReg (d : Byte)
  | outReg (d : Byte)
  | jmp (t : Byte)
  | cmpRegImm (d i : Byte)
  | cmpRegReg (d s : Byte)
  | cmpRegMem (d m : Byte)
  | je (t : Byte)
  | jne (t : Byte)
  | jg (t : Byte)
  | jl (t : Byte)
  | hlt
  deriving DecidableEq, Repr

/-- Why a sequence of bytes is not an instruction. -/
inductive DecodeError where
  /-- There is no byte at all. -/
  | noBytes
  /-- The first byte is none of the 22 opcodes (R98). -/
  | unknownOpcode (op : Byte)
  /-- The opcode's operand bytes are not all there. In the machine this cannot happen: operand addresses wrap (R103). -/
  | truncated (op : Byte)
  deriving DecidableEq, Repr

end Sys2Proof
end

