-- ==== Sys2Proof/WellFormed.lean ====
section
/-! DEFINITION. Which instructions are well formed: every byte in a register position is 0x00, 0x01 or 0x02 (R95). The
check applies to no other operand byte (R95, R99). Instructions that fail it are still executed: they fault (R104). -/

namespace Sys2Proof

/-- The register codes are 0x00, 0x01 and 0x02 (R32, R95). -/
def isRegCode (b : Byte) : Bool := decide (b.toNat < 3)

/-- Every register-position byte of the instruction is a register code (R95). -/
def Instr.wf : Instr → Bool
  | .movRegImm d _ => isRegCode d
  | .movRegReg d s => isRegCode d && isRegCode s
  | .movRegMem d _ => isRegCode d
  | .movMemReg _ s => isRegCode s
  | .addRegImm d _ => isRegCode d
  | .addRegReg d s => isRegCode d && isRegCode s
  | .addRegMem d _ => isRegCode d
  | .subRegImm d _ => isRegCode d
  | .subRegReg d s => isRegCode d && isRegCode s
  | .subRegMem d _ => isRegCode d
  | .incReg d => isRegCode d
  | .decReg d => isRegCode d
  | .outReg d => isRegCode d
  | .jmp _ => true
  | .cmpRegImm d _ => isRegCode d
  | .cmpRegReg d s => isRegCode d && isRegCode s
  | .cmpRegMem d _ => isRegCode d
  | .je _ => true
  | .jne _ => true
  | .jg _ => true
  | .jl _ => true
  | .hlt => true

end Sys2Proof
end

