-- ==== Sys2Proof/Decode.lean ====
section
/-! DEFINITION. Decoding and encoding. The opcode map is ONE table, `Op.byte` (R96; U15 asks for one table), read by the
decoder and the encoder alike. The whole opcode byte is compared (R97), the opcode alone fixes the length (R92, R100), and
every operand is a whole byte (R91, R93). -/

namespace Sys2Proof

/-- The opcode map (R96): the first byte of each instruction. -/
def Op.byte : Op → Byte
  | .movRegImm => 0x10#8
  | .movRegReg => 0x11#8
  | .movRegMem => 0x12#8
  | .movMemReg => 0x13#8
  | .addRegImm => 0x20#8
  | .addRegReg => 0x21#8
  | .addRegMem => 0x22#8
  | .subRegImm => 0x30#8
  | .subRegReg => 0x31#8
  | .subRegMem => 0x32#8
  | .incReg => 0x40#8
  | .decReg => 0x41#8
  | .outReg => 0x50#8
  | .jmp => 0x60#8
  | .cmpRegImm => 0x70#8
  | .cmpRegReg => 0x71#8
  | .cmpRegMem => 0x72#8
  | .je => 0x80#8
  | .jne => 0x81#8
  | .jg => 0x82#8
  | .jl => 0x83#8
  | .hlt => 0xFF#8

/-- The format of each opcode (R91, R96). -/
def Op.format : Op → Format
  | .movRegImm | .addRegImm | .subRegImm | .cmpRegImm => .ri
  | .movRegReg | .addRegReg | .subRegReg | .cmpRegReg => .rr
  | .movRegMem | .addRegMem | .subRegMem | .cmpRegMem => .rm
  | .movMemReg => .mr
  | .incReg | .decReg | .outReg => .r
  | .jmp | .je | .jne | .jg | .jl => .t
  | .hlt => .n

/-- How many operand bytes follow the opcode byte (R91). -/
def Format.operandCount : Format → Nat
  | .n => 0
  | .r | .t => 1
  | .ri | .rr | .rm | .mr => 2

/-- The instruction's length in bytes: one opcode byte and one byte per operand (R13, R90, R92). -/
def Op.length (o : Op) : Nat := 1 + o.format.operandCount

/-- All 22 opcodes (R2, R96). -/
def Op.all : List Op :=
  [.movRegImm, .movRegReg, .movRegMem, .movMemReg, .addRegImm, .addRegReg, .addRegMem] ++
  [.subRegImm, .subRegReg, .subRegMem, .incReg, .decReg, .outReg, .jmp] ++
  [.cmpRegImm, .cmpRegReg, .cmpRegMem, .je, .jne, .jg, .jl, .hlt]

/-- The opcode an opcode byte selects; none for the 234 undefined bytes (R97, R98). -/
def decodeOpcode (b : Byte) : Option Op := Op.all.find? fun o => o.byte == b

/-- The instruction an opcode makes with its operand bytes `B1` and `B2` (R91). A format of fewer operands ignores the
rest. -/
def Op.instr : Op → Byte → Byte → Instr
  | .movRegImm, b1, b2 => .movRegImm b1 b2
  | .movRegReg, b1, b2 => .movRegReg b1 b2
  | .movRegMem, b1, b2 => .movRegMem b1 b2
  | .movMemReg, b1, b2 => .movMemReg b1 b2
  | .addRegImm, b1, b2 => .addRegImm b1 b2
  | .addRegReg, b1, b2 => .addRegReg b1 b2
  | .addRegMem, b1, b2 => .addRegMem b1 b2
  | .subRegImm, b1, b2 => .subRegImm b1 b2
  | .subRegReg, b1, b2 => .subRegReg b1 b2
  | .subRegMem, b1, b2 => .subRegMem b1 b2
  | .incReg, b1, _ => .incReg b1
  | .decReg, b1, _ => .decReg b1
  | .outReg, b1, _ => .outReg b1
  | .jmp, b1, _ => .jmp b1
  | .cmpRegImm, b1, b2 => .cmpRegImm b1 b2
  | .cmpRegReg, b1, b2 => .cmpRegReg b1 b2
  | .cmpRegMem, b1, b2 => .cmpRegMem b1 b2
  | .je, b1, _ => .je b1
  | .jne, b1, _ => .jne b1
  | .jg, b1, _ => .jg b1
  | .jl, b1, _ => .jl b1
  | .hlt, _, _ => .hlt

/-- The opcode of an instruction. -/
def Instr.op : Instr → Op
  | .movRegImm _ _ => .movRegImm
  | .movRegReg _ _ => .movRegReg
  | .movRegMem _ _ => .movRegMem
  | .movMemReg _ _ => .movMemReg
  | .addRegImm _ _ => .addRegImm
  | .addRegReg _ _ => .addRegReg
  | .addRegMem _ _ => .addRegMem
  | .subRegImm _ _ => .subRegImm
  | .subRegReg _ _ => .subRegReg
  | .subRegMem _ _ => .subRegMem
  | .incReg _ => .incReg
  | .decReg _ => .decReg
  | .outReg _ => .outReg
  | .jmp _ => .jmp
  | .cmpRegImm _ _ => .cmpRegImm
  | .cmpRegReg _ _ => .cmpRegReg
  | .cmpRegMem _ _ => .cmpRegMem
  | .je _ => .je
  | .jne _ => .jne
  | .jg _ => .jg
  | .jl _ => .jl
  | .hlt => .hlt

/-- The operand bytes of an instruction, in the order they follow the opcode byte (R65, R91). -/
def Instr.operands : Instr → List Byte
  | .movRegImm d i | .addRegImm d i | .subRegImm d i | .cmpRegImm d i => [d, i]
  | .movRegReg d s | .addRegReg d s | .subRegReg d s | .cmpRegReg d s => [d, s]
  | .movRegMem d m | .addRegMem d m | .subRegMem d m | .cmpRegMem d m => [d, m]
  | .movMemReg m s => [m, s]
  | .incReg d | .decReg d | .outReg d => [d]
  | .jmp t | .je t | .jne t | .jg t | .jl t => [t]
  | .hlt => []

/-- Decode the first instruction of a sequence of bytes: the instruction and the bytes after it, or why there is none
(R65, R90, R91, R98). Total on every list of bytes. -/
def decode : List Byte → Except DecodeError (Instr × List Byte)
  | [] => .error .noBytes
  | b :: rest =>
    match decodeOpcode b with
    | none => .error (.unknownOpcode b)
    | some o =>
      if rest.length < o.format.operandCount then .error (.truncated b)
      else .ok (o.instr (rest.getD 0 0#8) (rest.getD 1 0#8), rest.drop o.format.operandCount)

/-- The bytes of an instruction: its opcode byte, then its operand bytes (R65, R90). -/
def encode (i : Instr) : List Byte := i.op.byte :: i.operands

/-- The three bytes at an instruction's address and after it, for the word `w` of `nbits` bits numbered as
spec/opcode_table.json numbers them (bit 0 is bit 0 of the opcode byte); every bit above `nbits` is 0. -/
def tableBytes (nbits w : Nat) : List Byte :=
  [BitVec.ofNat 8 (w % 2 ^ nbits), BitVec.ofNat 8 (w % 2 ^ nbits / 256), BitVec.ofNat 8 (w % 2 ^ nbits / 65536)]

/-- The instruction the decoder reads from a word numbered as the opcode table numbers it. -/
def decodeTableWord (nbits w : Nat) : Option Instr :=
  match decode (tableBytes nbits w) with
  | .ok (i, _) => some i
  | .error _ => none

end Sys2Proof
end

