-- ==== Sys2Proof/Config.lean ====
section
/-! DEFINITION. What is fixed for the machine (R10 to R15), the one value that the sparse memory needs, and the one free value, the
newline of the rendered output. -/

namespace Sys2Proof.Config

/-- `MEM_SIZE` (R11): memory has exactly 256 cells, addressed 0x00 to 0xFF. -/
def memSize : Nat := 256

/-- What a memory cell that the sparse memory does not list reads as.
DESIGN CHOICE, unsafe (entry 3): the spec leaves the initial memory open as the parameter `MEM_INIT` (R57, D9), which is the
argument of `State.powerOn`; this byte is only the default of the representation, under which every content of the
256 cells is one memory. -/
def unlistedByte : Byte := 0x00#8

/-- The assembler's parameter `JMP_NUMERIC_SYNTAX`, a subset of IMM and ADDR (R15, R125, D15). -/
structure JmpNumericSyntax where
  /-- `JMP 05` is accepted. -/
  imm : Bool
  /-- `JMP [05]` is accepted. -/
  addr : Bool
  deriving DecidableEq, Repr

/-- The spec's default: both spellings (R125, D15). -/
def jmpNumericDefault : JmpNumericSyntax := { imm := true, addr := true }

/-- The newline of the rendered output, its first character and the rest. Every rendered byte ends with one (R51); which characters it
is stays open (U12), so this is a free value with no body (entry 8). -/
opaque newline : Char × List Char

/-- The newline as text: at least one character. -/
def newlineText : List Char := newline.1 :: newline.2

end Sys2Proof.Config
end

