-- ==== Sys2Proof/Machine/State.lean ====
section
/-! DEFINITION. The complete architectural state (R55), the fault names (R240), the power-on state with `MEM_INIT` as its
argument (R57, R274) and the state right after reset. "Nothing else is state" (R55). -/

namespace Sys2Proof.Machine

/-- The execution faults (R240). A fault is no end of the model's run: the spec gives its entry (R243), so it is a next state
whose run state is `faulted` and whose fault record holds one of these names (entry 2). No step answers
`Host.Outcome.fault`. -/
inductive Fault where
  /-- Raised by the fetch of an opcode byte that is none of the 22 (R241). Safe: the spec's own fault. -/
  | unknownOpcode
  /-- Raised by an instruction whose register-position byte is not 0x00, 0x01 or 0x02 (R242). Safe: the spec's own
  fault. -/
  | invalidRegisterCode
  /-- Raised by nobody: an address is one byte (R244). It stays so that the source's names are all present. Safe. -/
  | invalidAddress
  /-- Raised by nobody: the PC is 8 bits (R245). It stays so that the source's names are all present. Safe. -/
  | pcOutOfBounds
  deriving DecidableEq, Repr

/-- Why the model has no meaning for an instruction. -/
inductive Refusal where
  /-- Raised by an arm of `exec` whose instruction has no meaning yet. No arm is one. Safe: the model stops. -/
  | notModelled (mnemonic : String)
  deriving DecidableEq, Repr

/-- The run state (R52). -/
inductive RunState where
  | ready | running | halted | faulted
  deriving DecidableEq, Repr

/-- The fault record (R54, R246). -/
structure FaultRecord where
  /-- Which fault. -/
  reason : Fault
  /-- The address of the faulting instruction's opcode byte. -/
  addr : Byte
  /-- The opcode byte. -/
  opcode : Byte
  /-- The offending register-code byte, for `invalidRegisterCode` only. -/
  code : Option Byte
  deriving DecidableEq, Repr

/-- The 256 cells (R49, R60), as the list of the cells that do not hold `Config.unlistedByte`, addresses strictly rising
(`Memory.wf`). Every content of the 256 cells is exactly one such list. -/
abbrev Memory := List Host.Cell

/-- The complete architectural state of the core (R55). -/
structure State where
  /-- Program counter (R36). -/
  pc : Byte
  /-- Instruction register: the most recently fetched opcode byte (R40). -/
  ir : Byte
  /-- General register R0 (R31). -/
  r0 : Byte
  /-- General register R1 (R31). -/
  r1 : Byte
  /-- General register R2 (R31). -/
  r2 : Byte
  /-- Zero flag (R42). -/
  zf : Bool
  /-- Sign flag (R43). -/
  sf : Bool
  /-- Memory (R49). -/
  mem : Memory
  /-- Output stream, oldest byte first (R50). -/
  out : List Byte
  /-- Run state (R52). -/
  run : RunState
  /-- Fault record (R54). -/
  flt : Option FaultRecord
  deriving DecidableEq, Repr

/-- Power-on with the memory content `MEM_INIT` (R57, R274): every other item has its reset value (R35, R39, R41, R45, R50,
R53, R54). A claim for every `MEM_INIT` is a claim about `State.powerOn m` for every `m`. -/
def State.powerOn (memInit : Memory) : State :=
  { pc := 0x00#8, ir := 0x00#8, r0 := 0x00#8, r1 := 0x00#8, r2 := 0x00#8, zf := false, sf := false,
    mem := memInit, out := [], run := .ready, flt := none }

/-- The machine right after reset (R270, R274), with no memory cell listed.
DESIGN CHOICE (entry 3): reset leaves memory as it was (R63), so this one constant needs an instance of `MEM_INIT`. -/
def State.reset : State := State.powerOn []

end Sys2Proof.Machine
end

