-- ==== Sys2Proof/Machine/Ops.lean ====
section
/-! DEFINITION. The operations every meaning is written over: memory (R60, R61), general registers (R19), the ALU (R150), the
PC update (R107, R108), the output stream (R21), taking a fault (R243) and the one way back from it, reset (R270). -/

namespace Sys2Proof.Machine

/-! Memory. -/

/-- The canonical form of a memory: addresses strictly rising, all of them cells (R60), and no entry equal to what an unlisted
cell reads as. -/
def Memory.wf (m : Memory) : Bool :=
  decide (m.Pairwise fun a b => a.1 < b.1) &&
    m.all fun c => decide (c.1 < Config.memSize) && decide (c.2 ≠ Config.unlistedByte)

/-- `MemRead(a, 1)` (R20, R61): the content of cell `a`. It changes nothing (R62). -/
def Memory.read (m : Memory) (a : Byte) : Byte := (m.lookup a.toNat).getD Config.unlistedByte

/-- Remove every entry of a cell. -/
def Memory.drop (m : Memory) (k : Nat) : Memory := m.filter fun c => c.1 != k

/-- Put an entry at its place in the rising order. -/
def Memory.place (k : Nat) (v : Byte) : Memory → Memory
  | [] => [(k, v)]
  | c :: m => if k < c.1 then (k, v) :: c :: m else c :: Memory.place k v m

/-- `MemWrite(a, 1, v)` (R20, R61): replace the content of cell `a` and of no other cell, keeping the canonical form. -/
def Memory.write (m : Memory) (a v : Byte) : Memory :=
  if v = Config.unlistedByte then m.drop a.toNat else Memory.place a.toNat v (m.drop a.toNat)

/-- Write bytes into consecutive cells from `a` on, addresses wrapping modulo 256 (R60, R127). -/
def Memory.writeBytes (m : Memory) (a : Byte) : List Byte → Memory
  | [] => m
  | b :: bs => Memory.writeBytes (m.write a b) (a + 1#8) bs

/-! Registers. -/

/-- `R[i]` (R19). No general register is hardwired (R33). -/
def State.reg (s : State) : Reg → Byte
  | .r0 => s.r0
  | .r1 => s.r1
  | .r2 => s.r2

/-- `R[i] <- v` (R19). -/
def State.setReg (s : State) (r : Reg) (v : Byte) : State :=
  match r with
  | .r0 => { s with r0 := v }
  | .r1 => { s with r1 := v }
  | .r2 => { s with r2 := v }

/-! The ALU: two functions modulo 256, with no flag of their own (R150, R152). -/

/-- `ALU_ADD(a, b) = (a + b) mod 256` (R150). -/
def aluAdd (a b : Byte) : Byte := a + b

/-- `ALU_SUB(a, b) = (a - b) mod 256` (R150). -/
def aluSub (a b : Byte) : Byte := a - b

/-! Control, output, faults, reset. -/

/-- `Advance(n)`: `PC <- (A + n) mod 256` (R107). During a step the PC holds `A` until this last action (R36). -/
def State.advance (s : State) (n : Nat) : State := { s with pc := s.pc + BitVec.ofNat 8 n }

/-- `PC <- t`, a taken jump, which makes no advance (R108). -/
def State.jump (s : State) (t : Byte) : State := { s with pc := t }

/-- `MemWrite` on the state's memory. -/
def State.store (s : State) (a v : Byte) : State := { s with mem := s.mem.write a v }

/-- `OutPush(v)` (R21): append one byte to the end of the output stream (R50). -/
def State.outPush (s : State) (v : Byte) : State := { s with out := s.out ++ [v] }

/-- `raise Fault(reason, info)` (R22, R110, R243): the run state becomes `faulted` and the fault record is set, with `addr` =
`A`, which the PC still holds (R54). Nothing else changes: there is no trap entry, no vector and no handler (R248). -/
def State.raiseFault (s : State) (reason : Fault) (opcode : Byte) (code : Option Byte) : State :=
  { s with run := .faulted, flt := some { reason := reason, addr := s.pc, opcode := opcode, code := code } }

/-- The reset operation (R270), the only way out of `halted` and `faulted` (R249, R272): it clears everything but memory
(R63, R271), in every run state (R272). -/
def State.resetCore (s : State) : State := State.powerOn s.mem

/-- The number of a fault on the status output (R240). -/
def faultNumber : Fault → Nat
  | .unknownOpcode => 1
  | .invalidRegisterCode => 2
  | .invalidAddress => 3
  | .pcOutOfBounds => 4

end Sys2Proof.Machine
end

