-- ==== Sys2Proof/Machine/Operands.lean ====
section
/-! DEFINITION. The operand forms (R91, R93). An immediate, an address and a jump target are the operand byte itself, with no
check (R93, R95). A register position goes through the register-code decode `Reg(b)` (R104). -/

namespace Sys2Proof.Machine

/-- The code of a register (R32, R95). -/
def regCode : Reg → Byte
  | .r0 => 0x00#8
  | .r1 => 0x01#8
  | .r2 => 0x02#8

/-- The register a code selects; none for 0x03 to 0xFF (R95, R104). -/
def regOfCode (b : Byte) : Option Reg :=
  if b = 0x00#8 then some .r0 else if b = 0x01#8 then some .r1 else if b = 0x02#8 then some .r2 else none

/-- `r := Reg(b)` followed by `k r` (R104): a byte that is no register code raises `InvalidRegisterCode` and nothing of `k`
happens. The record's opcode is the instruction's own opcode byte, so IR is not read (R40). Two register positions nest in
byte order, so `B1` is checked before `B2` and both before any write (R105). -/
def withReg (o : Op) (b : Byte) (s : State) (k : Reg → State) : State :=
  match regOfCode b with
  | some r => k r
  | none => s.raiseFault .invalidRegisterCode o.byte (some b)

/-- The operand `[addr]`: the byte in the cell the operand byte names (R72, R93). -/
def memOperand (s : State) (m : Byte) : Byte := s.mem.read m

end Sys2Proof.Machine
end

