-- ==== Sys2Proof/Machine/Arithmetic.lean ====
section
/-! DEFINITION. ADD, SUB, INC, DEC (41_arithmetic.md): modulo 256, no flag is written (R152). Each meaning starts from the state after the fetch (entry 5): the PC still holds `A`, the address of the
opcode byte. -/

namespace Sys2Proof.Machine

/-- ADD reg, imm (R153): `d := Reg(B1); R[d] <- ALU_ADD(R[d], B2); Advance(3)`. -/
def execAddRegImm (d i : Byte) (s : State) : Host.Outcome State Fault Refusal :=
  .next (withReg .addRegImm d s fun rd => (s.setReg rd (aluAdd (s.reg rd) i)).advance 3)

/-- ADD reg, reg (R154): `R[d] <- ALU_ADD(R[d], R[s])`, both read before the write (R19); `Advance(3)`. -/
def execAddRegReg (d r : Byte) (s : State) : Host.Outcome State Fault Refusal :=
  .next (withReg .addRegReg d s fun rd => withReg .addRegReg r s fun rs =>
    (s.setReg rd (aluAdd (s.reg rd) (s.reg rs))).advance 3)

/-- ADD reg, [addr] (R155): `d := Reg(B1); R[d] <- ALU_ADD(R[d], MemRead(B2, 1)); Advance(3)`. -/
def execAddRegMem (d m : Byte) (s : State) : Host.Outcome State Fault Refusal :=
  .next (withReg .addRegMem d s fun rd => (s.setReg rd (aluAdd (s.reg rd) (memOperand s m))).advance 3)

/-- SUB reg, imm (R156): `d := Reg(B1); R[d] <- ALU_SUB(R[d], B2); Advance(3)`. -/
def execSubRegImm (d i : Byte) (s : State) : Host.Outcome State Fault Refusal :=
  .next (withReg .subRegImm d s fun rd => (s.setReg rd (aluSub (s.reg rd) i)).advance 3)

/-- SUB reg, reg (R157): `R[d] <- ALU_SUB(R[d], R[s])`, both read before the write (R19); `Advance(3)`. -/
def execSubRegReg (d r : Byte) (s : State) : Host.Outcome State Fault Refusal :=
  .next (withReg .subRegReg d s fun rd => withReg .subRegReg r s fun rs =>
    (s.setReg rd (aluSub (s.reg rd) (s.reg rs))).advance 3)

/-- SUB reg, [addr] (R158): `d := Reg(B1); R[d] <- ALU_SUB(R[d], MemRead(B2, 1)); Advance(3)`. -/
def execSubRegMem (d m : Byte) (s : State) : Host.Outcome State Fault Refusal :=
  .next (withReg .subRegMem d s fun rd => (s.setReg rd (aluSub (s.reg rd) (memOperand s m))).advance 3)

/-- INC reg (R159): `d := Reg(B1); R[d] <- ALU_ADD(R[d], 1); Advance(2)`. -/
def execIncReg (d : Byte) (s : State) : Host.Outcome State Fault Refusal :=
  .next (withReg .incReg d s fun rd => (s.setReg rd (aluAdd (s.reg rd) 1#8)).advance 2)

/-- DEC reg (R160): `d := Reg(B1); R[d] <- ALU_SUB(R[d], 1); Advance(2)`. -/
def execDecReg (d : Byte) (s : State) : Host.Outcome State Fault Refusal :=
  .next (withReg .decReg d s fun rd => (s.setReg rd (aluSub (s.reg rd) 1#8)).advance 2)

end Sys2Proof.Machine
end

