-- ==== Sys2Proof/Machine/Flags.lean ====
section
/-! DEFINITION. The flag update logic of CMP (R191) and the conditions of the conditional jumps (R196 to R200). -/

namespace Sys2Proof.Machine

/-- `FlagUpdate(a, b)` (R191): with `r = (a - b) mod 256`, ZF is 1 exactly when `r` is 0 and SF is bit 7 of `r`. The
difference itself is not stored. -/
def State.flagUpdate (s : State) (a b : Byte) : State :=
  { s with zf := aluSub a b == 0x00#8, sf := (aluSub a b).getLsbD 7 }

/-- JE's condition: ZF = 1 (R197). -/
def State.condE (s : State) : Bool := s.zf

/-- JNE's condition: ZF = 0 (R198). -/
def State.condNE (s : State) : Bool := !s.zf

/-- JG's condition: ZF = 0 and SF = 0 (R199). -/
def State.condG (s : State) : Bool := !s.zf && !s.sf

/-- JL's condition: SF = 1; ZF is not tested (R200). -/
def State.condL (s : State) : Bool := s.sf

/-- `if cond then PC <- t else Advance(2)` (R196). -/
def State.branch (s : State) (cond : Bool) (t : Byte) : State := if cond then s.jump t else s.advance 2

end Sys2Proof.Machine
end

