-- ==== Sys2Proof/Machine/Branch.lean ====
section
/-! DEFINITION. JMP, CMP and the conditional jumps (43_compare_branch.md). Each meaning starts from the state after the fetch (entry 5): the PC still holds `A`, the address of the
opcode byte. -/

namespace Sys2Proof.Machine

/-- JMP target (R190): `PC <- B1`. No check, no flag, no fault. -/
def execJmp (t : Byte) (s : State) : Host.Outcome State Fault Refusal :=
  .next (s.jump t)

/-- CMP reg, imm (R193): `d := Reg(B1); FlagUpdate(R[d], B2); Advance(3)`. -/
def execCmpRegImm (d i : Byte) (s : State) : Host.Outcome State Fault Refusal :=
  .next (withReg .cmpRegImm d s fun rd => (s.flagUpdate (s.reg rd) i).advance 3)

/-- CMP reg, reg (R194): `d := Reg(B1); s := Reg(B2); FlagUpdate(R[d], R[s]); Advance(3)`. -/
def execCmpRegReg (d r : Byte) (s : State) : Host.Outcome State Fault Refusal :=
  .next (withReg .cmpRegReg d s fun rd => withReg .cmpRegReg r s fun rs =>
    (s.flagUpdate (s.reg rd) (s.reg rs)).advance 3)

/-- CMP reg, [addr] (R195): `d := Reg(B1); FlagUpdate(R[d], MemRead(B2, 1)); Advance(3)`. -/
def execCmpRegMem (d m : Byte) (s : State) : Host.Outcome State Fault Refusal :=
  .next (withReg .cmpRegMem d s fun rd => (s.flagUpdate (s.reg rd) (memOperand s m)).advance 3)

/-- JE target (R197): `PC <- B1` if ZF = 1, else `Advance(2)`. -/
def execJe (t : Byte) (s : State) : Host.Outcome State Fault Refusal :=
  .next (s.branch s.condE t)

/-- JNE target (R198): `PC <- B1` if ZF = 0, else `Advance(2)`. -/
def execJne (t : Byte) (s : State) : Host.Outcome State Fault Refusal :=
  .next (s.branch s.condNE t)

/-- JG target (R199): `PC <- B1` if ZF = 0 and SF = 0, else `Advance(2)`. -/
def execJg (t : Byte) (s : State) : Host.Outcome State Fault Refusal :=
  .next (s.branch s.condG t)

/-- JL target (R200): `PC <- B1` if SF = 1, else `Advance(2)`. -/
def execJl (t : Byte) (s : State) : Host.Outcome State Fault Refusal :=
  .next (s.branch s.condL t)

end Sys2Proof.Machine
end

