-- ==== Sys2Proof/Machine/DataTransfer.lean ====
section
/-! DEFINITION. MOV (40_data_transfer.md): copy a value; no flag is written. Each meaning starts from the state after the fetch (entry 5): the PC still holds `A`, the address of the
opcode byte. -/

namespace Sys2Proof.Machine

/-- MOV reg, imm (R130): `d := Reg(B1); R[d] <- B2; Advance(3)`. -/
def execMovRegImm (d i : Byte) (s : State) : Host.Outcome State Fault Refusal :=
  .next (withReg .movRegImm d s fun rd => (s.setReg rd i).advance 3)

/-- MOV reg, reg (R131): `d := Reg(B1); s := Reg(B2); R[d] <- R[s]; Advance(3)`. -/
def execMovRegReg (d r : Byte) (s : State) : Host.Outcome State Fault Refusal :=
  .next (withReg .movRegReg d s fun rd => withReg .movRegReg r s fun rs => (s.setReg rd (s.reg rs)).advance 3)

/-- MOV reg, [addr] (R132): `d := Reg(B1); R[d] <- MemRead(B2, 1); Advance(3)`. -/
def execMovRegMem (d m : Byte) (s : State) : Host.Outcome State Fault Refusal :=
  .next (withReg .movRegMem d s fun rd => (s.setReg rd (memOperand s m)).advance 3)

/-- MOV [addr], reg (R133): `s := Reg(B2); MemWrite(B1, 1, R[s]); Advance(3)`. The address byte is never checked. The
operand bytes were read before this write, so a store into them does not change this instruction (R80). -/
def execMovMemReg (m r : Byte) (s : State) : Host.Outcome State Fault Refusal :=
  .next (withReg .movMemReg r s fun rs => (s.store m (s.reg rs)).advance 3)

end Sys2Proof.Machine
end

