-- ==== Sys2Proof/Machine/Halt.lean ====
section
/-! DEFINITION. HLT (44_halt.md). Each meaning starts from the state after the fetch (entry 5): the PC still holds `A`, the address of the
opcode byte. -/

namespace Sys2Proof.Machine

/-- HLT (R230): `Run <- Halted`. The PC keeps `A`. -/
def execHlt (s : State) : Host.Outcome State Fault Refusal :=
  .next { s with run := .halted }

end Sys2Proof.Machine
end

