-- ==== Sys2Proof/Machine/Output.lean ====
section
/-! DEFINITION. OUT (42_output.md). Each meaning starts from the state after the fetch (entry 5): the PC still holds `A`, the address of the
opcode byte. -/

namespace Sys2Proof.Machine

/-- OUT reg (R180): `d := Reg(B1); OutPush(R[d]); Advance(2)`. -/
def execOutReg (d : Byte) (s : State) : Host.Outcome State Fault Refusal :=
  .next (withReg .outReg d s fun rd => (s.outPush (s.reg rd)).advance 2)

end Sys2Proof.Machine
end

