-- ==== Sys2Proof/Machine/Dispatch.lean ====
section
/-! DEFINITION. The dispatch on the instruction (R106): one arm per constructor, each one call of its meaning. -/

namespace Sys2Proof.Machine

def exec (i : Instr) (s : State) : Host.Outcome State Fault Refusal :=
  match i with
  | .movRegImm d imm => Sys2Proof.Machine.execMovRegImm d imm s
  | .movRegReg d r => Sys2Proof.Machine.execMovRegReg d r s
  | .movRegMem d m => Sys2Proof.Machine.execMovRegMem d m s
  | .movMemReg m r => Sys2Proof.Machine.execMovMemReg m r s
  | .addRegImm d imm => Sys2Proof.Machine.execAddRegImm d imm s
  | .addRegReg d r => Sys2Proof.Machine.execAddRegReg d r s
  | .addRegMem d m => Sys2Proof.Machine.execAddRegMem d m s
  | .subRegImm d imm => Sys2Proof.Machine.execSubRegImm d imm s
  | .subRegReg d r => Sys2Proof.Machine.execSubRegReg d r s
  | .subRegMem d m => Sys2Proof.Machine.execSubRegMem d m s
  | .incReg d => Sys2Proof.Machine.execIncReg d s
  | .decReg d => Sys2Proof.Machine.execDecReg d s
  | .outReg d => Sys2Proof.Machine.execOutReg d s
  | .jmp t => Sys2Proof.Machine.execJmp t s
  | .cmpRegImm d imm => Sys2Proof.Machine.execCmpRegImm d imm s
  | .cmpRegReg d r => Sys2Proof.Machine.execCmpRegReg d r s
  | .cmpRegMem d m => Sys2Proof.Machine.execCmpRegMem d m s
  | .je t => Sys2Proof.Machine.execJe t s
  | .jne t => Sys2Proof.Machine.execJne t s
  | .jg t => Sys2Proof.Machine.execJg t s
  | .jl t => Sys2Proof.Machine.execJl t s
  | .hlt => Sys2Proof.Machine.execHlt s

end Sys2Proof.Machine
end

