-- ==== Sys2Proof/Machine/Fetch.lean ====
section
/-! DEFINITION. The part of a step before the instruction rule (R101 to R106, R110): whether a step is accepted, the fetch, the
operand fetch and the decode. -/

namespace Sys2Proof.Machine

/-- A step is accepted only in `ready` and `running` (R101). -/
def State.accepts (s : State) : Bool :=
  match s.run with
  | .ready | .running => true
  | .halted | .faulted => false

/-- The opcode byte, `MemRead(A, 1)` (R102). -/
def State.opcodeByte (s : State) : Byte := s.mem.read s.pc

/-- The first operand byte, `B1 = MemRead((A+1) mod 256, 1)` (R103). -/
def State.operand1 (s : State) : Byte := s.mem.read (s.pc + 1#8)

/-- The second operand byte, `B2 = MemRead((A+2) mod 256, 1)` (R103). -/
def State.operand2 (s : State) : Byte := s.mem.read (s.pc + 2#8)

/-- The bytes the decoder is given: those at `A`, `A+1` and `A+2` modulo 256 (R65, R103). How many of them a step really reads
is not observable (R67); `stepAccesses` of Ports.lean says which it reads (entry 6). -/
def State.fetchWindow (s : State) : List Byte := [s.opcodeByte, s.operand1, s.operand2]

/-- The instruction at the PC, or none for an undefined opcode (R106). Three bytes are enough for every opcode (R92). -/
def State.fetchInstr (s : State) : Option Instr :=
  match decode s.fetchWindow with
  | .ok (i, _) => some i
  | .error _ => none

/-- The fetch (R102): `IR <- op` and the run state becomes `running`. -/
def State.fetched (s : State) : State := { s with ir := s.opcodeByte, run := .running }

/-- `raise Fault(UnknownOpcode, addr = A, opcode = op)` (R106, R241), after the fetch and before any operand fetch. -/
def State.unknownOpcode (s : State) : State := s.fetched.raiseFault .unknownOpcode s.opcodeByte none

/-- Put bytes into memory where the next step fetches: from the PC on, modulo 256. Memory only, as a host's load (R277). -/
def State.placeAtPc (s : State) (bytes : List Byte) : State := { s with mem := s.mem.writeBytes s.pc bytes }

end Sys2Proof.Machine
end

