-- ==== Sys2Proof/Machine/Step.lean ====
section
/-! DEFINITION. One step of the core (R9, R110). -/

namespace Sys2Proof.Machine

/-- `Step()` of R110. In `halted` and `faulted` the step is rejected and changes nothing (R53, R101; entry 1): the answer is
the state itself, and `stepOutcome` of Driver.lean reports `rejected`. Else the fetch writes IR and the run state, an
undefined opcode faults (R106), and a defined one is executed from the fetched state. -/
def step (s : State) : Host.Outcome State Fault Refusal :=
  if s.accepts then
    match s.fetchInstr with
    | some i => exec i s.fetched
    | none => .next s.unknownOpcode
  else .next s

/-- `s` with an instruction stored where `step` fetches its next one: the bytes of the word `w` of `nbits` bits, at the PC and
the two addresses after it (entry 4). -/
def State.withFetchWord (s : State) (nbits w : Nat) : State := s.placeAtPc (tableBytes nbits w)

end Sys2Proof.Machine
end

