-- ==== Sys2Proof/Machine/Datapath.lean ====
section
/-! DEFINITION. The core as hardware blocks: the decoder's control word for each opcode (R111) and the one datapath that it steers
(R72, R73, R150, R191). The instruction rules are normative and this is their summary (R111); `exec` does not use it. -/

namespace Sys2Proof.Machine

/-- The ALU or other function of a control word (R111, second column). -/
inductive Function where
  | passB | passSource | add | sub | addOne | subOne | output | idle | halt
  deriving DecidableEq, Repr

/-- Operand B (R111, third column). -/
inductive OperandB where
  | none | immediate | register | memory
  deriving DecidableEq, Repr

/-- The next PC (R111, last column). -/
inductive NextPc where
  /-- A + n -/
  | advance (n : Nat)
  /-- B1 -/
  | target
  /-- B1 if ZF and SF have the wanted values (a none is not tested), else A + 2 -/
  | targetIf (zf sf : Option Bool)
  /-- A -/
  | stay
  deriving DecidableEq, Repr

/-- A control word (R111). -/
structure Control where
  fn : Function
  opB : OperandB
  /-- R[d] is written -/
  regWrite : Bool
  /-- Mem[B1] is written -/
  memWrite : Bool
  /-- ZF and SF are written -/
  flagWrite : Bool
  next : NextPc
  deriving DecidableEq, Repr

/-- A control word that writes a register from the ALU and goes on. -/
def controlAlu (fn : Function) (b : OperandB) (n : Nat) : Control :=
  { fn := fn, opB := b, regWrite := true, memWrite := false, flagWrite := false, next := .advance n }

/-- CMP's control word: the difference goes to the flags only. -/
def controlCmp (b : OperandB) : Control :=
  { fn := .sub, opB := b, regWrite := false, memWrite := false, flagWrite := true, next := .advance 3 }

/-- A control word that writes no register, memory cell or flag. -/
def controlFlow (fn : Function) (next : NextPc) : Control :=
  { fn := fn, opB := .none, regWrite := false, memWrite := false, flagWrite := false, next := next }

/-- The decoder's outputs per opcode (R111). -/
def controlWord : Op → Control
  | .movRegImm => controlAlu .passB .immediate 3
  | .movRegReg => controlAlu .passB .register 3
  | .movRegMem => controlAlu .passB .memory 3
  | .movMemReg =>
    { fn := .passSource, opB := .none, regWrite := false, memWrite := true, flagWrite := false, next := .advance 3 }
  | .addRegImm => controlAlu .add .immediate 3
  | .addRegReg => controlAlu .add .register 3
  | .addRegMem => controlAlu .add .memory 3
  | .subRegImm => controlAlu .sub .immediate 3
  | .subRegReg => controlAlu .sub .register 3
  | .subRegMem => controlAlu .sub .memory 3
  | .incReg => controlAlu .addOne .none 2
  | .decReg => controlAlu .subOne .none 2
  | .outReg => controlFlow .output (.advance 2)
  | .jmp => controlFlow .idle .target
  | .cmpRegImm => controlCmp .immediate
  | .cmpRegReg => controlCmp .register
  | .cmpRegMem => controlCmp .memory
  | .je => controlFlow .idle (.targetIf (some true) none)
  | .jne => controlFlow .idle (.targetIf (some false) none)
  | .jg => controlFlow .idle (.targetIf (some false) (some false))
  | .jl => controlFlow .idle (.targetIf none (some true))
  | .hlt => controlFlow .halt .stay

/-- The register codes of a format (R91, R95): the byte that names R[d] and the byte that names R[s], in byte order. -/
def registerBytes (f : Format) (b1 b2 : Byte) : Option Byte × Option Byte :=
  match f with
  | .n | .t => (none, none)
  | .r | .ri | .rm => (some b1, none)
  | .rr => (some b1, some b2)
  | .mr => (none, some b2)

/-- The first register byte that is no register code (R105, R247). -/
def firstInvalid (bytes : Option Byte × Option Byte) : Option Byte :=
  (bytes.1.filter fun b => (regOfCode b).isNone).or (bytes.2.filter fun b => (regOfCode b).isNone)

/-- The register a valid register byte names; R0 stands where the format has no such byte and nothing uses it. -/
def selected (b : Option Byte) : Reg := (b.bind regOfCode).getD .r0

/-- The value on the second ALU input (R73). -/
def inputB (c : Control) (source : Byte) (b2 : Byte) (s : State) : Byte :=
  match c.opB with
  | .none => 0x00#8
  | .immediate => b2
  | .register => source
  | .memory => s.mem.read b2

/-- The value on the result bus: from R[d], operand B and R[s] (R111, R150). -/
def resultBus (f : Function) (dest b source : Byte) : Byte :=
  match f with
  | .passB => b
  | .passSource => source
  | .add => aluAdd dest b
  | .sub => aluSub dest b
  | .addOne => aluAdd dest 1#8
  | .subOne => aluSub dest 1#8
  | .output => dest
  | .idle | .halt => 0x00#8

/-- The next PC (R107, R108, R196, R230), from the flags before the instruction. -/
def nextPc (n : NextPc) (b1 : Byte) (s : State) : Byte :=
  match n with
  | .advance k => s.pc + BitVec.ofNat 8 k
  | .target => b1
  | .targetIf z f => if z.getD s.zf = s.zf ∧ f.getD s.sf = s.sf then b1 else s.pc + 2#8
  | .stay => s.pc

/-- One instruction on the datapath, from the state after the fetch: the register check, then every write the control word asks
for. -/
def runDatapath (o : Op) (b1 b2 : Byte) (s : State) : State :=
  let c := controlWord o
  let codes := registerBytes o.format b1 b2
  match firstInvalid codes with
  | some code => s.raiseFault .invalidRegisterCode o.byte (some code)
  | none =>
    let d := selected codes.1
    let source := s.reg (selected codes.2)
    let r := resultBus c.fn (s.reg d) (inputB c source b2 s) source
    let s1 := if c.regWrite then s.setReg d r else s
    { s1 with
      pc := nextPc c.next b1 s
      zf := if c.flagWrite then r == 0x00#8 else s.zf
      sf := if c.flagWrite then r.getLsbD 7 else s.sf
      mem := if c.memWrite then s.mem.write b1 r else s.mem
      out := if c.fn = .output then s.out ++ [r] else s.out
      run := if c.fn = .halt then .halted else s.run }

end Sys2Proof.Machine
end

