-- ==== Sys2Proof/Machine/Ports.lean ====
section
/-! DEFINITION. The memory port and the output port of one step (R56 (a), (b)): which accesses the step makes, in order (R67, R72,
R74), and which byte it sends to the output port (R181). -/

namespace Sys2Proof.Machine

/-- One access on the memory port, one byte wide (R67). -/
inductive Access where
  /-- the opcode fetch (R102) -/
  | fetch (a : Byte)
  /-- an operand fetch (R103) -/
  | operand (a : Byte)
  /-- a data read -/
  | read (a : Byte)
  /-- a data write -/
  | write (a v : Byte)
  deriving DecidableEq, Repr

/-- The data access of an instruction (R67, R72, R73): a read for the `reg, [addr]` forms, a write for `MOV [addr], reg`, none
else; and none when a register code is invalid (R67, R105). -/
def dataAccess (i : Instr) (s : State) : List Access :=
  match i with
  | .movRegMem d m | .addRegMem d m | .subRegMem d m | .cmpRegMem d m =>
    match regOfCode d with
    | some _ => [.read m]
    | none => []
  | .movMemReg m r =>
    match regOfCode r with
    | some rs => [.write m (s.reg rs)]
    | none => []
  | .movRegImm _ _ | .movRegReg _ _ | .addRegImm _ _ | .addRegReg _ _ | .subRegImm _ _ | .subRegReg _ _ => []
  | .incReg _ | .decReg _ | .outReg _ | .jmp _ | .cmpRegImm _ _ | .cmpRegReg _ _ => []
  | .je _ | .jne _ | .jg _ | .jl _ | .hlt => []

/-- The operand fetches of an opcode at address `a` (R67, R103), in ascending order (R74). -/
def operandFetches (a : Byte) (o : Op) : List Access := ([a + 1#8, a + 2#8].take o.format.operandCount).map .operand

/-- Every memory access of the step taken in `s`, in order (R67, R74). A rejected step makes none (R101), an undefined opcode only
the fetch (R106). -/
def stepAccesses (s : State) : List Access :=
  if s.accepts then
    match decodeOpcode s.opcodeByte with
    | none => [.fetch s.pc]
    | some o => .fetch s.pc :: (operandFetches s.pc o ++ dataAccess (o.instr s.operand1 s.operand2) s)
  else []

/-- The address an access reads, if it reads one. -/
def Access.readAddr : Access → Option Byte
  | .fetch a | .operand a | .read a => some a
  | .write _ _ => none

/-- The byte the step taken in `s` sends to the output port with its strobe, if it sends one (R56 (b), R181). -/
def stepOutput (s : State) : Option Byte :=
  if s.accepts && s.opcodeByte == Op.outReg.byte then (regOfCode s.operand1).map s.reg else none

end Sys2Proof.Machine
end

