-- ==== Sys2Proof/Machine/Assembler.lean ====
section
/-! DEFINITION. The two-pass assembler and the memory-patch text (R120 to R129): host-side software whose output is the memory
image the core runs. Its errors are not core faults (R7, R128). Text is a list of characters (R120). -/

namespace Sys2Proof.Machine

/-- The assembler's error kinds (R128). -/
inductive AsmErrorKind where
  | duplicateLabel | undefinedLabel | unknownMnemonic | invalidOperandShape | invalidOperandToken
  deriving DecidableEq, Repr

/-- An error and the number of its line, the first line being 1 (R128; entry 12). -/
structure AsmError where
  kind : AsmErrorKind
  line : Nat
  deriving DecidableEq, Repr

/-- The 13 mnemonics (R96, R123). -/
inductive Mnemonic where
  | mov | add | sub | inc | dec | out | jmp | cmp | je | jne | jg | jl | hlt
  deriving DecidableEq, Repr

/-- The operand kinds (R28, R124). -/
inductive OperandTag where
  | reg | addr | imm | label
  deriving DecidableEq, Repr

/-- A classified operand (R124). -/
inductive Operand where
  | reg (r : Reg)
  | addr (a : Byte)
  | imm (i : Byte)
  | label (name : List Char)
  deriving DecidableEq, Repr

/-- A source line after its comment is gone (R120, R121): its number, its label and its words. -/
structure SourceLine where
  number : Nat
  label : Option (List Char)
  words : List (List Char)
  deriving DecidableEq, Repr

/-- Label names and their addresses, in upper case, since label names are case-insensitive (R121). -/
abbrev SymbolTable := List (List Char × Byte)

/-! Characters and lines. -/

/-- Blanks inside a line (entry 10). -/
def isBlank (c : Char) : Bool := c == ' ' || c == '\t' || c == '\r'

/-- What separates operands: comma or space (R120, R123). -/
def isSeparator (c : Char) : Bool := isBlank c || c == ','

/-- The lines of a text (R120). -/
def splitLines : List Char → List (List Char)
  | [] => [[]]
  | c :: cs =>
    if c == '\n' then [] :: splitLines cs
    else
      match splitLines cs with
      | l :: ls => (c :: l) :: ls
      | [] => [[c]]

/-- `;` begins a comment: the rest of the line is discarded (R120). -/
def stripComment (l : List Char) : List Char := l.takeWhile (· != ';')

/-- Remove blanks at both ends. -/
def trimBlanks (l : List Char) : List Char := ((l.dropWhile isBlank).reverse.dropWhile isBlank).reverse

/-- The word that a line begins with, up to a separator, and the words after it. -/
def wordsFrom : List Char → List Char × List (List Char)
  | [] => ([], [])
  | c :: cs =>
    let (w, ws) := wordsFrom cs
    if isSeparator c then ([], if w.isEmpty then ws else w :: ws) else (c :: w, ws)

/-- The words of a line, commas treated as blanks (R123). -/
def wordsOf (l : List Char) : List (List Char) :=
  let (w, ws) := wordsFrom l
  if w.isEmpty then ws else w :: ws

/-- Names compare without regard to case (R121, R123, D17). -/
def upper (w : List Char) : List Char := w.map Char.toUpper

/-- An identifier: a letter or underscore, then letters, digits and underscores. DESIGN CHOICE (entry 9; U9). -/
def isIdent : List Char → Bool
  | [] => false
  | c :: cs => (c.isAlpha || c == '_') && cs.all fun d => d.isAlphanum || d == '_'

/-- A label definition is an identifier followed by `:`, and an instruction may follow it on its line (R121, C5, D16). -/
def splitLabel (l : List Char) : Option (List Char) × List Char :=
  let name := trimBlanks (l.takeWhile (· != ':'))
  match l.dropWhile (· != ':') with
  | _ :: rest => if isIdent name then (some (upper name), rest) else (none, l)
  | [] => (none, l)

/-- The lines of a source text, numbered from 1, comments gone, labels split off (R120, R121). -/
def sourceLines (text : List Char) : List SourceLine :=
  (splitLines text).zipIdx.map fun (l, n) =>
    { number := n + 1, label := (splitLabel (stripComment l)).1, words := wordsOf (splitLabel (stripComment l)).2 }

/-! Operands and shapes. -/

/-- The mnemonics by name, in any case (R123, D17). -/
def mnemonicOf (w : List Char) : Option Mnemonic :=
  [("MOV", Mnemonic.mov), ("ADD", .add), ("SUB", .sub), ("INC", .inc), ("DEC", .dec), ("OUT", .out), ("JMP", .jmp),
   ("CMP", .cmp), ("JE", .je), ("JNE", .jne), ("JG", .jg), ("JL", .jl), ("HLT", .hlt)].findSome? fun (n, m) =>
    if n.toList = upper w then some m else none

/-- The value of a hexadecimal digit, in either case (D17). -/
def hexValue (c : Char) : Option Nat :=
  let k := "0123456789ABCDEF".toList.idxOf c.toUpper
  if k < 16 then some k else none

/-- Two hexadecimal digits as a byte. -/
def hexPair (a b : Char) : Option Byte :=
  match hexValue a, hexValue b with
  | some x, some y => some (BitVec.ofNat 8 (16 * x + y))
  | _, _ => none

/-- An exact register name (R32, R124). -/
def asReg (w : List Char) : Option Reg :=
  if upper w = "R0".toList then some .r0
  else if upper w = "R1".toList then some .r1
  else if upper w = "R2".toList then some .r2
  else none

/-- A bracketed two-hex-digit address `[HH]` (R124). -/
def asAddr : List Char → Option Byte
  | ['[', a, b, ']'] => hexPair a b
  | _ => none

/-- A one-or-two-hex-digit immediate (R124, C4). -/
def asImm : List Char → Option Byte
  | [a] => hexPair '0' a
  | [a, b] => hexPair a b
  | _ => none

/-- Operand classification in the priority order register, address, immediate, label (R124); none is
`InvalidOperandToken`. -/
def classify (w : List Char) : Option Operand :=
  match asReg w, asAddr w, asImm w with
  | some r, _, _ => some (.reg r)
  | none, some a, _ => some (.addr a)
  | none, none, some i => some (.imm i)
  | none, none, none => if isIdent w then some (.label (upper w)) else none

/-- The tag of an operand (R28). -/
def Operand.tag : Operand → OperandTag
  | .reg _ => .reg
  | .addr _ => .addr
  | .imm _ => .imm
  | .label _ => .label

/-- The shapes of ADD, SUB and CMP (R125). -/
def shapeAlu (ri rr rm : Op) : List OperandTag → Option Op
  | [.reg, .imm] => some ri
  | [.reg, .reg] => some rr
  | [.reg, .addr] => some rm
  | _ => none

/-- The shape of INC, DEC and OUT (R125). -/
def shapeReg (o : Op) : List OperandTag → Option Op
  | [.reg] => some o
  | _ => none

/-- The shapes of the jumps: a label, and the numeric spellings of `JMP_NUMERIC_SYNTAX` (R125, D15). -/
def shapeJump (js : Config.JmpNumericSyntax) (o : Op) : List OperandTag → Option Op
  | [.label] => some o
  | [.imm] => if js.imm then some o else none
  | [.addr] => if js.addr then some o else none
  | _ => none

/-- The opcode that a mnemonic has for a shape; none is `InvalidOperandShape` (R125). -/
def opForShape (js : Config.JmpNumericSyntax) (m : Mnemonic) (tags : List OperandTag) : Option Op :=
  match m with
  | .mov => if tags = [.addr, .reg] then some .movMemReg else shapeAlu .movRegImm .movRegReg .movRegMem tags
  | .add => shapeAlu .addRegImm .addRegReg .addRegMem tags
  | .sub => shapeAlu .subRegImm .subRegReg .subRegMem tags
  | .cmp => shapeAlu .cmpRegImm .cmpRegReg .cmpRegMem tags
  | .inc => shapeReg .incReg tags
  | .dec => shapeReg .decReg tags
  | .out => shapeReg .outReg tags
  | .jmp => shapeJump js .jmp tags
  | .je => shapeJump js .je tags
  | .jne => shapeJump js .jne tags
  | .jg => shapeJump js .jg tags
  | .jl => shapeJump js .jl tags
  | .hlt => if tags = [] then some .hlt else none

/-- The byte an operand is encoded as (R94); none is `UndefinedLabel` (R126). -/
def operandByte (st : SymbolTable) : Operand → Option Byte
  | .reg r => some (regCode r)
  | .addr a => some a
  | .imm i => some i
  | .label n => st.lookup n

/-- Every element's result, if each has one. -/
def allSome {α β : Type} (f : α → Option β) : List α → Option (List β)
  | [] => some []
  | a :: as =>
    match f a, allSome f as with
    | some b, some bs => some (b :: bs)
    | _, _ => none

/-- The bytes of one instruction's words (R94, R123 to R126): mnemonic, operand tokens, shape, labels, in that order. No words
make no bytes. -/
def assembleWords (js : Config.JmpNumericSyntax) (st : SymbolTable) : List (List Char) → Except AsmErrorKind (List Byte)
  | [] => .ok []
  | w :: ws =>
    match mnemonicOf w with
    | none => .error .unknownMnemonic
    | some m =>
      match allSome classify ws with
      | none => .error .invalidOperandToken
      | some os =>
        match opForShape js m (os.map Operand.tag) with
        | none => .error .invalidOperandShape
        | some o =>
          match allSome (operandByte st) os with
          | none => .error .undefinedLabel
          | some bs => .ok (o.byte :: bs)

/-! The two passes. -/

/-- Pass 1 (R121, R122): a line's size is its number of words, one for the mnemonic and one per operand, and a label takes the
address of its line, modulo 256. -/
def pass1 : Byte → SymbolTable → List SourceLine → Except AsmError SymbolTable
  | _, st, [] => .ok st
  | addr, st, l :: ls =>
    match l.label with
    | none => pass1 (addr + BitVec.ofNat 8 l.words.length) st ls
    | some n =>
      match st.lookup n with
      | some _ => .error { kind := .duplicateLabel, line := l.number }
      | none => pass1 (addr + BitVec.ofNat 8 l.words.length) ((n, addr) :: st) ls

/-- Pass 2 (R123): the bytes of every line, in order. -/
def pass2 (js : Config.JmpNumericSyntax) (st : SymbolTable) : List SourceLine → Except AsmError (List Byte)
  | [] => .ok []
  | l :: ls =>
    match assembleWords js st l.words with
    | .error k => .error { kind := k, line := l.number }
    | .ok bs =>
      match pass2 js st ls with
      | .error e => .error e
      | .ok rest => .ok (bs ++ rest)

/-- The assembler: source text to the byte image placed from address 0 on, or the first error (R120 to R128). It is a function of
the text and the opcode table alone (R127). -/
def assemble (js : Config.JmpNumericSyntax) (text : List Char) : Except AsmError (List Byte) :=
  match pass1 0x00#8 [] (sourceLines text) with
  | .error e => .error e
  | .ok st => pass2 js st (sourceLines text)

/-! Memory patch text. -/

/-- A patch line `[HH]: HH` (R129). -/
def patchLine (l : List Char) : Option (Byte × Byte) :=
  match trimBlanks l with
  | '[' :: a :: b :: ']' :: ':' :: rest =>
    match hexPair a b, trimBlanks rest with
    | some addr, [c, d] => (hexPair c d).map fun v => (addr, v)
    | _, _ => none
  | _ => none

/-- The cells of numbered patch lines, or the number of the first line that is no patch line. Blank lines are skipped
(entry 10). -/
def patchLines : Nat → List (List Char) → Except Nat (List (Byte × Byte))
  | _, [] => .ok []
  | n, l :: ls =>
    if (trimBlanks l).isEmpty then patchLines (n + 1) ls
    else
      match patchLine l with
      | none => .error n
      | some c =>
        match patchLines (n + 1) ls with
        | .error k => .error k
        | .ok cs => .ok (c :: cs)

/-- The cells a patch text sets (R129). -/
def parsePatch (text : List Char) : Except Nat (List (Byte × Byte)) := patchLines 1 (splitLines text)

end Sys2Proof.Machine
end

