-- ==== Sys2Proof/Machine/Driver.lean ====
section
/-! DEFINITION. What the host can do to the core between steps (R276): `reset()`, `step()` with its outcome, `runToHalt()`,
loading an assembled image, memory patch, and observing. Nothing else exists: no operation here writes a register, a flag or
the run state except `reset` and `step`. -/

namespace Sys2Proof.Machine

/-- The outcome a step reports (R9, R25). -/
inductive StepOutcome where
  /-- One instruction was executed and the run goes on. -/
  | continued
  /-- HLT was executed (R230). -/
  | halted
  /-- A fault was raised (R243). -/
  | faulted (reason : Fault)
  /-- The core was already in a terminal state; nothing changed (R53). -/
  | rejected
  deriving DecidableEq, Repr

/-- The outcome read off the state `t` that an accepted step ends in (R53). A faulted step always leaves a fault record; the
last case is never met (entry 7). -/
def outcomeAfter (t : State) : StepOutcome :=
  match t.run, t.flt with
  | .halted, _ => .halted
  | .faulted, some f => .faulted f.reason
  | _, _ => .continued

/-- The host's `step()` (R276): the state after it and the outcome it reports; none if the model had no meaning, which never
happens. -/
def hostStep (s : State) : Option (State × StepOutcome) :=
  match step s with
  | .next t => some (t, if s.accepts then outcomeAfter t else .rejected)
  | .fault _ => none
  | .refused _ => none

/-- The outcome `step()` reports in `s` (R25). -/
def stepOutcome (s : State) : Option StepOutcome := (hostStep s).map Prod.snd

/-- The host's `reset()` (R270, R276). -/
def hostReset (s : State) : State := s.resetCore

/-- The driver's run (R276, R278): steps until the outcome is not `continued`, unless the host cancels it by making no further call
after `calls` steps (entry 11). It answers the state that the last completed step leaves, and the outcome that ended the run, or
none for a cancelled run. -/
def runCalls : Nat → State → State × Option StepOutcome
  | 0, s => (s, none)
  | calls + 1, s =>
    match hostStep s with
    | some (t, .continued) => runCalls calls t
    | some (t, o) => (t, some o)
    | none => (s, none)

/-- `runToHalt()` (R276, R278) that has returned within `calls` steps: the state and the outcome of its last step; none if it has not
returned by then. What a run that is cancelled then leaves is `runCalls`. -/
def runToHalt (calls : Nat) (s : State) : Option (State × StepOutcome) :=
  match runCalls calls s with
  | (t, some o) => some (t, o)
  | (_, none) => none

/-- Load a byte image from address 0 on, wrapping (R127). Memory only (R277). -/
def loadImage (image : List Byte) (s : State) : State := { s with mem := s.mem.writeBytes 0x00#8 image }

/-- Load assembled source text (R127, R276). An assembly error aborts the whole load and memory is as before (R128, R280): there is
no new state at all. -/
def loadSource (jmpSyntax : Config.JmpNumericSyntax) (text : List Char) (s : State) : Except AsmError State :=
  match assemble jmpSyntax text with
  | .ok image => .ok (loadImage image s)
  | .error e => .error e

/-- Write patched cells in their order. -/
def Memory.patch (m : Memory) : List (Byte × Byte) → Memory
  | [] => m
  | (a, v) :: ps => Memory.patch (m.write a v) ps

/-- Memory patch (R129, R276): every line sets one cell; a rejected line aborts the whole batch and changes nothing (R280). The
error is the number of the first rejected line. -/
def patchMemory (text : List Char) (s : State) : Except Nat State :=
  match parsePatch text with
  | .ok cells => .ok { s with mem := s.mem.patch cells }
  | .error line => .error line

/-- One upper-case hexadecimal digit. -/
def hexDigit (n : Nat) : Char := "0123456789ABCDEF".toList.getD n '0'

/-- The two-hex-digit upper-case text of a byte (R51). -/
def hexText (b : Byte) : List Char := [hexDigit (b.toNat / 16), hexDigit (b.toNat % 16)]

/-- The two-hex-digit strings of the output stream, one for each byte, oldest first (R51). -/
def State.outLines (s : State) : List (List Char) := s.out.map hexText

/-- The output stream as the text the host observes (R51): the two digits of each byte and a newline, whose characters are a free value
(U12; entry 8). -/
def State.outText (s : State) : List Char := s.outLines.flatMap fun l => l ++ Config.newlineText

/-- The status outputs (R56 (d), R240): the run state, the fault number (0 = no fault), the fault record and the views of the
registers and flags. -/
structure Status where
  run : RunState
  faultNumber : Nat
  flt : Option FaultRecord
  pc : Byte
  ir : Byte
  regs : List Byte
  zf : Bool
  sf : Bool
  deriving DecidableEq, Repr

/-- What an observer sees on the status outputs between steps (R56, R256). -/
def State.status (s : State) : Status :=
  { run := s.run, faultNumber := (s.flt.map fun f => faultNumber f.reason).getD 0, flt := s.flt, pc := s.pc, ir := s.ir,
    regs := [s.r0, s.r1, s.r2], zf := s.zf, sf := s.sf }

end Sys2Proof.Machine
end

