-- ==== Sys2Proof/Safety.lean ====
section
/-! DEFINITION. What claims about runs are stated in: the invariant of the core, the end of a run (R279) and the states that the
host's operations and steps can lead to (R276). -/

namespace Sys2Proof.Machine

/-- What a fault record says of the state it stands in (R54, R241, R242). -/
def FaultRecord.Agrees (f : FaultRecord) (s : State) : Prop :=
  f.addr = s.pc ∧ f.opcode = s.ir ∧
    ((f.reason = .unknownOpcode ∧ f.code = none ∧ decodeOpcode f.opcode = none) ∨
     (f.reason = .invalidRegisterCode ∧ (∃ o, decodeOpcode f.opcode = some o) ∧ ∃ b, f.code = some b ∧ 3 ≤ b.toNat))

/-- The invariant of the core: what holds in every state that the host and the core can bring about. -/
structure State.Inv (s : State) : Prop where
  /-- Memory is in its canonical form, so it has exactly the 256 cells (R60). -/
  memory : s.mem.wf = true
  /-- ZF and SF are never both 1 (R46). -/
  flags : ¬(s.zf = true ∧ s.sf = true)
  /-- There is a fault record exactly while the run state is `faulted` (R54). -/
  record : s.flt.isSome = true ↔ s.run = .faulted
  /-- The fault record repeats PC and IR, with a reason that can occur (R54, R241, R242, R244 to R246). -/
  recordAgrees : ∀ f, s.flt = some f → f.Agrees s
  /-- A halted core's IR holds 0xFF (R230). -/
  halted : s.run = .halted → s.ir = 0xFF#8
  /-- Before the first step everything but memory has its reset value (R53, R270). -/
  ready : s.run = .ready → s = State.powerOn s.mem

/-- A run has ended exactly when the run state is `halted` or `faulted` (R279). -/
def State.Ended (s : State) : Prop := s.run = .halted ∨ s.run = .faulted

/-- The states that power-on with any `MEM_INIT`, steps and the host's operations lead to (R57, R274, R276). -/
inductive Reachable : State → Prop where
  | powerOn (memInit : Memory) : memInit.wf = true → Reachable (State.powerOn memInit)
  | step (s t : State) : Reachable s → step s = .next t → Reachable t
  | reset (s : State) : Reachable s → Reachable (hostReset s)
  | load (s : State) (image : List Byte) : Reachable s → Reachable (loadImage image s)
  | patch (s t : State) (text : List Char) : Reachable s → patchMemory text s = .ok t → Reachable t

end Sys2Proof.Machine
end

