-- ==== Sys2Proof/Certificates/Slice0/Obligations.lean ====
section
/-! DEFINITION. The statements for the provers. First the words they are written in (Sys2Proof.Claims), then one definition
`Obligations.<Name> : Prop` each, in the order of spec/. -/

namespace Sys2Proof.Claims

open Sys2Proof.Machine

/-- A step is accepted (R101). -/
abbrev Accepts (s : State) : Prop := s.run = .ready ∨ s.run = .running

/-- The state after the fetch of `op` (R102): IR holds it and the run state is `running`. -/
def Fetched (s : State) (op : Byte) : State := { s with ir := op, run := .running }

/-- Whenever a step is accepted and `op` stands at the PC, the step is the instruction rule of `ins` with the bytes at PC + 1 and
PC + 2, modulo 256, applied to the state after the fetch (R103, R106, R110). -/
def Executes (op : Byte) (ins : Byte → Byte → Instr) : Prop :=
  ∀ s, Accepts s → s.mem.read s.pc = op →
    step s = exec (ins (s.mem.read (s.pc + 1#8)) (s.mem.read (s.pc + 2#8))) (Fetched s op)

/-- `op` is the opcode of the three-byte instruction `ins` (R91, R92). -/
def Opcode3 (op : Byte) (ins : Byte → Byte → Instr) : Prop := (∀ b1 b2, encode (ins b1 b2) = [op, b1, b2]) ∧ Executes op ins

/-- `op` is the opcode of the two-byte instruction `ins` (R91, R92). -/
def Opcode2 (op : Byte) (ins : Byte → Instr) : Prop := (∀ b, encode (ins b) = [op, b]) ∧ Executes op fun b _ => ins b

/-- `op` is the opcode of the one-byte instruction `ins` (R91, R92). -/
def Opcode1 (op : Byte) (ins : Instr) : Prop := encode ins = [op] ∧ Executes op fun _ _ => ins

/-- The general registers are as before. -/
def SameRegs (s t : State) : Prop := ∀ r, t.reg r = s.reg r

/-- The flags are as before. -/
def SameFlags (s t : State) : Prop := t.zf = s.zf ∧ t.sf = s.sf

/-- Every cell reads as before. -/
def SameMem (s t : State) : Prop := ∀ a, t.mem.read a = s.mem.read a

/-- IR, the run state and the fault record are as before. -/
def SameControl (s t : State) : Prop := t.ir = s.ir ∧ t.run = s.run ∧ t.flt = s.flt

/-- `PC <- (A + n) mod 256` (R107). -/
def Advanced (n : Nat) (s t : State) : Prop := t.pc.toNat = (s.pc.toNat + n) % 256

/-- The register `d` gets the value `v`, the PC advances by `n`, and nothing else changes. -/
def WritesRegister (d : Reg) (v : Int) (n : Nat) (s t : State) : Prop :=
  ((t.reg d).toNat : Int) = v ∧ (∀ r, r ≠ d → t.reg r = s.reg r) ∧ Advanced n s t ∧
    SameFlags s t ∧ SameMem s t ∧ t.out = s.out ∧ SameControl s t

/-- The cell `a` gets the byte `v`, the PC advances by `n`, and nothing else changes. -/
def WritesCell (a v : Byte) (n : Nat) (s t : State) : Prop :=
  t.mem.read a = v ∧ (∀ b, b ≠ a → t.mem.read b = s.mem.read b) ∧ Advanced n s t ∧
    SameRegs s t ∧ SameFlags s t ∧ t.out = s.out ∧ SameControl s t

/-- `(a - b) mod 256`, from the exact difference (R191). -/
def wrappedDifference (a b : Byte) : Nat := (((a.toNat : Int) - (b.toNat : Int)) % 256).toNat

/-- ZF says whether the wrapped difference of `a` and `b` is zero and SF is its bit 7 (R191), the PC advances by `n`, and nothing
else changes. -/
def WritesFlags (a b : Byte) (n : Nat) (s t : State) : Prop :=
  t.zf = decide (wrappedDifference a b = 0) ∧ t.sf = (wrappedDifference a b).testBit 7 ∧ Advanced n s t ∧
    SameRegs s t ∧ SameMem s t ∧ t.out = s.out ∧ SameControl s t

/-- One byte is appended to the output stream, the PC advances by `n`, and nothing else changes. -/
def Outputs (v : Byte) (n : Nat) (s t : State) : Prop :=
  t.out = s.out ++ [v] ∧ Advanced n s t ∧ SameRegs s t ∧ SameFlags s t ∧ SameMem s t ∧ SameControl s t

/-- The PC becomes `p` and nothing else changes. -/
def GoesTo (p : Nat) (s t : State) : Prop :=
  t.pc.toNat = p ∧ SameRegs s t ∧ SameFlags s t ∧ SameMem s t ∧ t.out = s.out ∧ SameControl s t

/-- The effect of a fault raised in `s` (R54, R243): the run state is `faulted`, the record names the reason, the PC, the opcode and
the register code, and nothing else changes, the PC and IR among it. -/
def FaultTaken (reason : Fault) (opcode : Byte) (code : Option Byte) (s t : State) : Prop :=
  t.run = .faulted ∧ t.flt = some { reason := reason, addr := s.pc, opcode := opcode, code := code } ∧
    t.pc = s.pc ∧ t.ir = s.ir ∧ SameRegs s t ∧ SameFlags s t ∧ SameMem s t ∧ t.out = s.out

/-- The instruction `ins b` of opcode `op` faults `InvalidRegisterCode` in every state when `b` is none of 0x00, 0x01, 0x02
(R242). -/
def FaultsOnCode (op : Byte) (ins : Byte → Instr) : Prop :=
  ∀ b s, 3 ≤ b.toNat → ∃ t, exec (ins b) s = .next t ∧ FaultTaken .invalidRegisterCode op (some b) s t

/-- The data accesses of a `reg, [addr]` form: the one byte it reads, and none when the register code is invalid, since the fault
comes before the read (R67, R72). -/
def ReadsOnlyItsOperand (ins : Byte → Byte → Instr) : Prop :=
  (∀ d m s, dataAccess (ins (regCode d) m) s = [.read m]) ∧ ∀ b m s, 3 ≤ b.toNat → dataAccess (ins b m) s = []

/-- The 234 undefined opcode bytes, range by range as R98 lists them. -/
abbrev UndefinedOpcode (b : Byte) : Prop :=
  b.toNat ≤ 0x0F ∨ (0x14 ≤ b.toNat ∧ b.toNat ≤ 0x1F) ∨ (0x23 ≤ b.toNat ∧ b.toNat ≤ 0x2F) ∨
    (0x33 ≤ b.toNat ∧ b.toNat ≤ 0x3F) ∨ (0x42 ≤ b.toNat ∧ b.toNat ≤ 0x4F) ∨ (0x51 ≤ b.toNat ∧ b.toNat ≤ 0x5F) ∨
    (0x61 ≤ b.toNat ∧ b.toNat ≤ 0x6F) ∨ (0x73 ≤ b.toNat ∧ b.toNat ≤ 0x7F) ∨ (0x84 ≤ b.toNat ∧ b.toNat ≤ 0xFE)

/-- The first register-position byte of the instruction at the PC that is no register code, `B1` before `B2`, by opcode
(R105, R242). -/
def OffendingByte (s : State) : Option Byte :=
  let bad (b : Byte) : Option Byte := if 3 ≤ b.toNat then some b else none
  let b1 := s.mem.read (s.pc + 1#8)
  let b2 := s.mem.read (s.pc + 2#8)
  if s.mem.read s.pc ∈ [0x10#8, 0x12#8, 0x20#8, 0x22#8, 0x30#8, 0x32#8, 0x40#8, 0x41#8, 0x50#8, 0x70#8, 0x72#8] then bad b1
  else if s.mem.read s.pc ∈ [0x11#8, 0x21#8, 0x31#8, 0x71#8] then (bad b1).or (bad b2)
  else if s.mem.read s.pc = 0x13#8 then bad b2
  else none

/-- `i` is a CMP of the byte `a`, in a register, with the byte `b`: an immediate, a register or a memory byte (R193 to R195). -/
abbrev Compares (i : Instr) (s : State) (a b : Byte) : Prop :=
  (∃ d, i = .cmpRegImm (regCode d) b ∧ a = s.reg d) ∨
    (∃ d r, i = .cmpRegReg (regCode d) (regCode r) ∧ a = s.reg d ∧ b = s.reg r) ∨
    ∃ d m, i = .cmpRegMem (regCode d) m ∧ a = s.reg d ∧ b = s.mem.read m

/-- A jump goes to its target from `t`. -/
def Taken (i : Byte → Instr) (t : State) : Prop := ∀ x, exec (i x) t = .next { t with pc := x }

/-- A jump goes on to the next instruction from `t`. -/
def NotTaken (i : Byte → Instr) (t : State) : Prop := ∀ x, exec (i x) t = .next { t with pc := t.pc + 2#8 }

/-- In `t`, JL and JG are taken as `less` and `greater` say. -/
def JumpsGive (less greater : Prop) (t : State) : Prop := (Taken .jl t ↔ less) ∧ (Taken .jg t ↔ greater)

/-- `t` is where `n` accepted steps lead from `s`, every one of which leaves the core running. -/
def StepsOn : Nat → State → State → Prop
  | 0, s, t => t = s
  | n + 1, s, t => Accepts s ∧ ∃ u, step s = .next u ∧ u.run = .running ∧ StepsOn n u t

/-- How many bytes the lines before line `k` are assembled to (R122). -/
def bytesBefore (ls : List SourceLine) (k : Nat) : Nat := ((ls.take k).map fun l => l.words.length).sum

end Sys2Proof.Claims

open Sys2Proof Sys2Proof.Machine Sys2Proof.Claims

/-! ## State, reset and memory -/

/-- R270: what reset leaves, from every state, in every run state (R272). -/
def Obligations.ResetClearsAllButMemory : Prop :=
  ∀ s, (hostReset s).pc = 0x00#8 ∧ (hostReset s).ir = 0x00#8 ∧ (∀ r, (hostReset s).reg r = 0x00#8) ∧
    (hostReset s).zf = false ∧ (hostReset s).sf = false ∧ (hostReset s).out = [] ∧ (hostReset s).flt = none ∧
    (hostReset s).run = .ready ∧ ∀ a, (hostReset s).mem.read a = s.mem.read a

/-- R273: after reset the first step fetches from address 0x00, whatever it then does. -/
def Obligations.FirstStepAfterResetFetchesAddressZero : Prop :=
  ∀ s, ∃ t, step (hostReset s) = .next t ∧ t.ir = s.mem.read 0x00#8

/-- Memory's canonical form is canonical: two well-formed memories whose 256 cells agree are the same data (entry 3). -/
def Obligations.CanonicalMemoriesWithEqualCellsAreEqual : Prop :=
  ∀ m n : Memory, m.wf = true → n.wf = true → (∀ a, m.read a = n.read a) → m = n

/-- R57, R15: every content of the 256 cells is the content of a well-formed memory, so `State.powerOn` can take any
`MEM_INIT`. -/
def Obligations.EveryMemoryContentIsRepresented : Prop :=
  ∀ f : Byte → Byte, ∃ m : Memory, m.wf = true ∧ ∀ a, m.read a = f a

/-- R95: the register codes are 0x00 for R0, 0x01 for R1, 0x02 for R2, and every other byte selects none. -/
def Obligations.RegisterCodesSelectRegisters : Prop :=
  regCode .r0 = 0x00#8 ∧ regCode .r1 = 0x01#8 ∧ regCode .r2 = 0x02#8 ∧ (∀ r, regOfCode (regCode r) = some r) ∧
    ∀ b, regOfCode b = none ↔ 3 ≤ b.toNat

/-! ## Encoding and the instruction cycle -/

/-- A few words written out from R91 and R96 decode to the instructions they stand for. -/
def Obligations.SampleWordsDecode : Prop :=
  decodeTableWord 24 0x050010 = some (.movRegImm 0x00#8 0x05#8) ∧ decodeTableWord 24 0x002213 = some (.movMemReg 0x22#8 0x00#8) ∧
    decodeTableWord 24 0x020121 = some (.addRegReg 0x01#8 0x02#8) ∧ decodeTableWord 24 0x400232 = some (.subRegMem 0x02#8 0x40#8) ∧
    decodeTableWord 16 0x0141 = some (.decReg 0x01#8) ∧ decodeTableWord 16 0x0050 = some (.outReg 0x00#8) ∧
    decodeTableWord 24 0x010071 = some (.cmpRegReg 0x00#8 0x01#8) ∧ decodeTableWord 16 0x4082 = some (.jg 0x40#8) ∧
    decodeTableWord 8 0xFF = some .hlt ∧ decodeTableWord 8 0x00 = none

/-- R98, which the spec derives from R96: the undefined opcode bytes are exactly the listed ranges, and there are 234 of them. -/
def Obligations.UndefinedOpcodesAreTheListedRanges : Prop :=
  (∀ b, decodeOpcode b = none ↔ UndefinedOpcode b) ∧
    ((List.range 256).filter fun n => (decodeOpcode (BitVec.ofNat 8 n)).isNone).length = 234

/-- R92: the length of an instruction by its opcode byte. -/
def Obligations.OpcodeFixesInstructionLength : Prop :=
  ∀ bytes i rest, decode bytes = .ok (i, rest) → ∃ op, bytes.head? = some op ∧ bytes.length = (encode i).length + rest.length ∧
    (encode i).length =
      if op = 0xFF#8 then 1
      else if op ∈ [0x40#8, 0x41#8, 0x50#8, 0x60#8, 0x80#8, 0x81#8, 0x82#8, 0x83#8] then 2
      else 3

/-- Decoding and encoding agree, with every operand at every byte value, whatever bytes follow (R90, R91): encoded instructions
decode to themselves, and bytes that decode are the encoding of what they decode to, with no unused bit (R97, R99). -/
def Obligations.DecodeAndEncodeAgree : Prop := ∀ bytes i rest, decode bytes = .ok (i, rest) ↔ bytes = encode i ++ rest

/-- An accepted step runs the instruction that the bytes at the PC decode to, from the state after the fetch (R102 to R106,
R110). The two addresses after the PC are taken modulo 256 (R103). -/
def Obligations.StepRunsDecodedInstruction : Prop :=
  ∀ s i rest, Accepts s → decode [s.mem.read s.pc, s.mem.read (s.pc + 1#8), s.mem.read (s.pc + 2#8)] = .ok (i, rest) →
    step s = exec i (Fetched s (s.mem.read s.pc))

/-- R53, R101: a step requested in a terminal state changes nothing and reports `rejected`. That the model answers a next state equal
to the old one is its choice (entry 1). -/
def Obligations.TerminalStateRejectsStep : Prop :=
  ∀ s, s.run = .halted ∨ s.run = .faulted → step s = .next s ∧ hostStep s = some (s, .rejected)

/-- R40: every accepted step writes the fetched opcode byte to IR, one that faults or halts too, and IR has no execution effect: the
step does not depend on the IR it starts with. -/
def Obligations.InstructionRegisterOnlyRecords : Prop :=
  ∀ s, Accepts s → (∃ t, step s = .next t ∧ t.ir = s.mem.read s.pc) ∧ ∀ x, step { s with ir := x } = step s

/-- R37: the PC after an accepted step. A fault and HLT leave it; a jump instruction goes to its target or to A + 2; every other
instruction advances by its length. -/
def Obligations.ProgramCounterAfterStep : Prop :=
  ∀ s t, Accepts s → step s = .next t →
    (t.run = .halted ∨ t.run = .faulted → t.pc = s.pc) ∧
    (t.run = .running →
      (s.mem.read s.pc ∈ [0x60#8, 0x80#8, 0x81#8, 0x82#8, 0x83#8] ∧
        (t.pc = s.mem.read (s.pc + 1#8) ∨ t.pc.toNat = (s.pc.toNat + 2) % 256)) ∨
      (s.mem.read s.pc ∈ [0x40#8, 0x41#8, 0x50#8] ∧ t.pc.toNat = (s.pc.toNat + 2) % 256) ∨
      (s.mem.read s.pc ∈ [0x10#8, 0x11#8, 0x12#8, 0x13#8, 0x20#8, 0x21#8, 0x22#8, 0x30#8, 0x31#8, 0x32#8, 0x70#8, 0x71#8, 0x72#8] ∧
        t.pc.toNat = (s.pc.toNat + 3) % 256))

/-- R53: an accepted step ends in `running`, `halted` or `faulted`, and the outcome it reports says which; it is `halted` exactly for
HLT's opcode. -/
def Obligations.AcceptedStepEndsInReportedRunState : Prop :=
  ∀ s, Accepts s → ∃ t, step s = .next t ∧
    ((t.run = .running ∧ hostStep s = some (t, .continued)) ∨ (t.run = .halted ∧ hostStep s = some (t, .halted)) ∨
      (t.run = .faulted ∧ ∃ f, t.flt = some f ∧ hostStep s = some (t, .faulted f.reason))) ∧
    (t.run = .halted ↔ s.mem.read s.pc = 0xFF#8)

/-- The model stops nowhere: every instruction, in every state, gives a next state, and so does every step. Every fault and every
rejection of the spec is a next state (entries 1 and 2). -/
def Obligations.EveryInstructionAndStepAnswersNext : Prop :=
  (∀ i s, ∃ t, exec i s = .next t) ∧ ∀ s, ∃ t, step s = .next t

/-! ## Data transfer -/

/-- R130. -/
def Obligations.MovRegImmCopiesImmediate : Prop :=
  Opcode3 0x10#8 .movRegImm ∧
    (∀ d i s, ∃ t, exec (.movRegImm (regCode d) i) s = .next t ∧ WritesRegister d i.toNat 3 s t) ∧
    ∀ i, FaultsOnCode 0x10#8 fun b => .movRegImm b i

/-- R131. -/
def Obligations.MovRegRegCopiesRegister : Prop :=
  Opcode3 0x11#8 .movRegReg ∧
    (∀ d r s, ∃ t, exec (.movRegReg (regCode d) (regCode r)) s = .next t ∧ WritesRegister d (s.reg r).toNat 3 s t) ∧
    (∀ b2, FaultsOnCode 0x11#8 fun b => .movRegReg b b2) ∧ ∀ d, FaultsOnCode 0x11#8 fun b => .movRegReg (regCode d) b

/-- R132. -/
def Obligations.MovRegMemLoadsByte : Prop :=
  Opcode3 0x12#8 .movRegMem ∧
    (∀ d m s, ∃ t, exec (.movRegMem (regCode d) m) s = .next t ∧ WritesRegister d (s.mem.read m).toNat 3 s t) ∧
    (∀ m, FaultsOnCode 0x12#8 fun b => .movRegMem b m) ∧ ReadsOnlyItsOperand .movRegMem

/-- R133. The address stored to is the operand byte itself, and no step of another instruction changes memory. -/
def Obligations.MovMemRegStoresByte : Prop :=
  Opcode3 0x13#8 .movMemReg ∧
    (∀ m r s, ∃ t, exec (.movMemReg m (regCode r)) s = .next t ∧ WritesCell m (s.reg r) 3 s t) ∧
    (∀ m, FaultsOnCode 0x13#8 fun b => .movMemReg m b) ∧
    (∀ m b s, 3 ≤ b.toNat → dataAccess (.movMemReg m b) s = []) ∧
    ∀ s t, step s = .next t → (∃ a, t.mem.read a ≠ s.mem.read a) → s.mem.read s.pc = 0x13#8

/-! ## Arithmetic -/

/-- R153. -/
def Obligations.AddRegImmAddsModulo256 : Prop :=
  Opcode3 0x20#8 .addRegImm ∧
    (∀ d i s, ∃ t, exec (.addRegImm (regCode d) i) s = .next t ∧
      WritesRegister d (((s.reg d).toNat + i.toNat : Int) % 256) 3 s t) ∧
    ∀ i, FaultsOnCode 0x20#8 fun b => .addRegImm b i

/-- R154. -/
def Obligations.AddRegRegAddsModulo256 : Prop :=
  Opcode3 0x21#8 .addRegReg ∧
    (∀ d r s, ∃ t, exec (.addRegReg (regCode d) (regCode r)) s = .next t ∧
      WritesRegister d (((s.reg d).toNat + (s.reg r).toNat : Int) % 256) 3 s t) ∧
    (∀ b2, FaultsOnCode 0x21#8 fun b => .addRegReg b b2) ∧ ∀ d, FaultsOnCode 0x21#8 fun b => .addRegReg (regCode d) b

/-- R155. -/
def Obligations.AddRegMemAddsModulo256 : Prop :=
  Opcode3 0x22#8 .addRegMem ∧
    (∀ d m s, ∃ t, exec (.addRegMem (regCode d) m) s = .next t ∧
      WritesRegister d (((s.reg d).toNat + (s.mem.read m).toNat : Int) % 256) 3 s t) ∧
    (∀ m, FaultsOnCode 0x22#8 fun b => .addRegMem b m) ∧ ReadsOnlyItsOperand .addRegMem

/-- R156. -/
def Obligations.SubRegImmSubtractsModulo256 : Prop :=
  Opcode3 0x30#8 .subRegImm ∧
    (∀ d i s, ∃ t, exec (.subRegImm (regCode d) i) s = .next t ∧
      WritesRegister d (((s.reg d).toNat - i.toNat : Int) % 256) 3 s t) ∧
    ∀ i, FaultsOnCode 0x30#8 fun b => .subRegImm b i

/-- R157. -/
def Obligations.SubRegRegSubtractsModulo256 : Prop :=
  Opcode3 0x31#8 .subRegReg ∧
    (∀ d r s, ∃ t, exec (.subRegReg (regCode d) (regCode r)) s = .next t ∧
      WritesRegister d (((s.reg d).toNat - (s.reg r).toNat : Int) % 256) 3 s t) ∧
    (∀ b2, FaultsOnCode 0x31#8 fun b => .subRegReg b b2) ∧ ∀ d, FaultsOnCode 0x31#8 fun b => .subRegReg (regCode d) b

/-- R158. -/
def Obligations.SubRegMemSubtractsModulo256 : Prop :=
  Opcode3 0x32#8 .subRegMem ∧
    (∀ d m s, ∃ t, exec (.subRegMem (regCode d) m) s = .next t ∧
      WritesRegister d (((s.reg d).toNat - (s.mem.read m).toNat : Int) % 256) 3 s t) ∧
    (∀ m, FaultsOnCode 0x32#8 fun b => .subRegMem b m) ∧ ReadsOnlyItsOperand .subRegMem

/-- R159. -/
def Obligations.IncRegAddsOneModulo256 : Prop :=
  Opcode2 0x40#8 .incReg ∧
    (∀ d s, ∃ t, exec (.incReg (regCode d)) s = .next t ∧ WritesRegister d (((s.reg d).toNat + 1 : Int) % 256) 2 s t) ∧
    FaultsOnCode 0x40#8 .incReg

/-- R160. -/
def Obligations.DecRegSubtractsOneModulo256 : Prop :=
  Opcode2 0x41#8 .decReg ∧
    (∀ d s, ∃ t, exec (.decReg (regCode d)) s = .next t ∧ WritesRegister d (((s.reg d).toNat - 1 : Int) % 256) 2 s t) ∧
    FaultsOnCode 0x41#8 .decReg

/-! ## Output -/

/-- R180. -/
def Obligations.OutRegAppendsRegister : Prop :=
  Opcode2 0x50#8 .outReg ∧ (∀ d s, ∃ t, exec (.outReg (regCode d)) s = .next t ∧ Outputs (s.reg d) 2 s t) ∧
    FaultsOnCode 0x50#8 .outReg

/-! ## Jump, compare, conditional jumps, halt -/

/-- R190. -/
def Obligations.JmpGoesToTarget : Prop :=
  Opcode2 0x60#8 .jmp ∧ ∀ x s, ∃ t, exec (.jmp x) s = .next t ∧ GoesTo x.toNat s t

/-- R193. -/
def Obligations.CmpRegImmWritesFlags : Prop :=
  Opcode3 0x70#8 .cmpRegImm ∧
    (∀ d i s, ∃ t, exec (.cmpRegImm (regCode d) i) s = .next t ∧ WritesFlags (s.reg d) i 3 s t) ∧
    ∀ i, FaultsOnCode 0x70#8 fun b => .cmpRegImm b i

/-- R194. -/
def Obligations.CmpRegRegWritesFlags : Prop :=
  Opcode3 0x71#8 .cmpRegReg ∧
    (∀ d r s, ∃ t, exec (.cmpRegReg (regCode d) (regCode r)) s = .next t ∧ WritesFlags (s.reg d) (s.reg r) 3 s t) ∧
    (∀ b2, FaultsOnCode 0x71#8 fun b => .cmpRegReg b b2) ∧ ∀ d, FaultsOnCode 0x71#8 fun b => .cmpRegReg (regCode d) b

/-- R195. -/
def Obligations.CmpRegMemWritesFlags : Prop :=
  Opcode3 0x72#8 .cmpRegMem ∧
    (∀ d m s, ∃ t, exec (.cmpRegMem (regCode d) m) s = .next t ∧ WritesFlags (s.reg d) (s.mem.read m) 3 s t) ∧
    (∀ m, FaultsOnCode 0x72#8 fun b => .cmpRegMem b m) ∧ ReadsOnlyItsOperand .cmpRegMem

/-- R197, for every pair of flags, the unreachable one too (U13). -/
def Obligations.JeJumpsWhenZeroFlagSet : Prop :=
  Opcode2 0x80#8 .je ∧
    ∀ x s, ∃ t, exec (.je x) s = .next t ∧ GoesTo (if s.zf = true then x.toNat else (s.pc.toNat + 2) % 256) s t

/-- R198. -/
def Obligations.JneJumpsWhenZeroFlagClear : Prop :=
  Opcode2 0x81#8 .jne ∧
    ∀ x s, ∃ t, exec (.jne x) s = .next t ∧ GoesTo (if s.zf = false then x.toNat else (s.pc.toNat + 2) % 256) s t

/-- R199, for every pair of flags, the unreachable one too (U13). -/
def Obligations.JgJumpsWhenBothFlagsClear : Prop :=
  Opcode2 0x82#8 .jg ∧
    ∀ x s, ∃ t, exec (.jg x) s = .next t ∧
      GoesTo (if s.zf = false ∧ s.sf = false then x.toNat else (s.pc.toNat + 2) % 256) s t

/-- R200, for every pair of flags, the unreachable one too (U13). -/
def Obligations.JlJumpsWhenSignFlagSet : Prop :=
  Opcode2 0x83#8 .jl ∧
    ∀ x s, ∃ t, exec (.jl x) s = .next t ∧ GoesTo (if s.sf = true then x.toNat else (s.pc.toNat + 2) % 256) s t

/-- R230. -/
def Obligations.HltHaltsAndKeepsPc : Prop :=
  Opcode1 0xFF#8 .hlt ∧
    ∀ s, ∃ t, exec .hlt s = .next t ∧ t.run = .halted ∧ t.pc = s.pc ∧ t.ir = s.ir ∧ t.flt = s.flt ∧
      SameRegs s t ∧ SameFlags s t ∧ SameMem s t ∧ t.out = s.out

/-- R192, which the spec derives from R191: what the flags say after every form of CMP, and when SF is the sign of the exact
difference. -/
def Obligations.CompareFlagsMeanEqualityAndWrappedSign : Prop :=
  ∀ i s a b, Compares i s a b → ∃ t, exec i s = .next t ∧
    (t.zf = true ↔ a = b) ∧ (t.sf = true ↔ 0x80 ≤ wrappedDifference a b) ∧ ¬(t.zf = true ∧ t.sf = true) ∧
    ((t.sf = true ↔ (a.toNat : Int) - b.toNat < 0) ↔ -128 ≤ (a.toNat : Int) - b.toNat ∧ (a.toNat : Int) - b.toNat ≤ 127)

/-- R201, which the spec derives from R191 and R197 to R200: which jumps are taken after every form of CMP; exactly when JL and JG give
the unsigned order and exactly when the signed order; both exactly when the top bits agree, and always at least one of the two (the
last two: R201 says only 'both hold when'; the rest is read from it by inference). -/
def Obligations.ConditionalJumpsAfterCompare : Prop :=
  ∀ i s a b, Compares i s a b → ∃ t, exec i s = .next t ∧
    (if a = b then Taken .je t ∧ NotTaken .jne t ∧ NotTaken .jg t ∧ NotTaken .jl t
      else if wrappedDifference a b ≤ 0x7F then NotTaken .je t ∧ Taken .jne t ∧ Taken .jg t ∧ NotTaken .jl t
      else NotTaken .je t ∧ Taken .jne t ∧ NotTaken .jg t ∧ Taken .jl t) ∧
    (JumpsGive (a.toNat < b.toNat) (b.toNat < a.toNat) t ↔
      -128 ≤ (a.toNat : Int) - b.toNat ∧ (a.toNat : Int) - b.toNat ≤ 127) ∧
    (JumpsGive (a.toInt < b.toInt) (b.toInt < a.toInt) t ↔ -128 ≤ a.toInt - b.toInt ∧ a.toInt - b.toInt ≤ 127) ∧
    (JumpsGive (a.toNat < b.toNat) (b.toNat < a.toNat) t ∧ JumpsGive (a.toInt < b.toInt) (b.toInt < a.toInt) t ↔
      (a.toNat < 0x80 ↔ b.toNat < 0x80)) ∧
    (JumpsGive (a.toNat < b.toNat) (b.toNat < a.toNat) t ∨ JumpsGive (a.toInt < b.toInt) (b.toInt < a.toInt) t)

/-! ## Faults -/

/-- R241: an undefined opcode byte faults before any operand byte is read. Only IR, the run state and the fault record change. -/
def Obligations.UndefinedOpcodeFaults : Prop :=
  ∀ s, Accepts s → UndefinedOpcode (s.mem.read s.pc) →
    ∃ t, step s = .next t ∧ hostStep s = some (t, .faulted .unknownOpcode) ∧ stepAccesses s = [.fetch s.pc] ∧
      FaultTaken .unknownOpcode (s.mem.read s.pc) none (Fetched s (s.mem.read s.pc)) t

/-- R247: an accepted step faults exactly when its opcode is undefined or one of its register-position bytes is invalid, never both,
and the record names the first failing check, `B1` before `B2`. -/
def Obligations.FirstFailingCheckDecidesFault : Prop :=
  ∀ s, Accepts s → ∃ t, step s = .next t ∧
    (t.run = .faulted ↔ UndefinedOpcode (s.mem.read s.pc) ∨ OffendingByte s ≠ none) ∧
    (UndefinedOpcode (s.mem.read s.pc) → OffendingByte s = none ∧
      FaultTaken .unknownOpcode (s.mem.read s.pc) none (Fetched s (s.mem.read s.pc)) t) ∧
    ∀ b, OffendingByte s = some b →
      FaultTaken .invalidRegisterCode (s.mem.read s.pc) (some b) (Fetched s (s.mem.read s.pc)) t

/-- R240: the numbers of the faults on the status output, 0 for none. -/
def Obligations.StatusOutputNumbersFaults : Prop :=
  faultNumber .unknownOpcode = 1 ∧ faultNumber .invalidRegisterCode = 2 ∧ faultNumber .invalidAddress = 3 ∧
    faultNumber .pcOutOfBounds = 4 ∧ (∀ s : State, s.flt = none → s.status.faultNumber = 0) ∧
    ∀ (s : State) (f : FaultRecord), s.flt = some f → s.status.faultNumber = faultNumber f.reason

/-! ## Whole-machine rules -/

/-- R44: no step but a compare that does not fault changes a flag. -/
def Obligations.OnlyCompareWritesFlags : Prop :=
  ∀ s t, step s = .next t → s.mem.read s.pc ∉ [0x70#8, 0x71#8, 0x72#8] ∨ t.run = .faulted → t.zf = s.zf ∧ t.sf = s.sf

/-- Only MOV [addr], reg writes memory, and only the cell its first operand byte names (R67, R133). -/
def Obligations.OnlyStoreWritesMemory : Prop :=
  ∀ s t, step s = .next t → ∀ a, t.mem.read a ≠ s.mem.read a →
    s.mem.read s.pc = 0x13#8 ∧ a = s.mem.read (s.pc + 1#8) ∧ ∃ r, t.mem.read a = s.reg r

/-- R181: a step appends to the output stream exactly the byte it sends to the output port, which only OUT does, and the stream is
never read: what stands in it before changes nothing else of the step. -/
def Obligations.OutputStreamIsAppendOnlyAndNeverRead : Prop :=
  ∀ s, Accepts s → ∃ t, step s = .next t ∧ t.out = s.out ++ (stepOutput s).toList ∧
    (∀ v, stepOutput s = some v ↔
      s.mem.read s.pc = 0x50#8 ∧ ∃ r, s.mem.read (s.pc + 1#8) = regCode r ∧ v = s.reg r) ∧
    ∀ older, step { s with out := older ++ s.out } = .next { t with out := older ++ t.out }

/-- A store is seen by every later fetch and never changes the instruction that makes it, even into its own bytes (R79, R80, R282):
after an accepted store every cell reads as the write left it, and the next step's bytes are those cells. -/
def Obligations.StoreIsSeenByEveryLaterFetch : Prop :=
  ∀ s r, Accepts s → s.mem.read s.pc = 0x13#8 → s.mem.read (s.pc + 2#8) = regCode r →
    ∃ t, step s = .next t ∧ t.pc = s.pc + 3#8 ∧ (∀ q, t.reg q = s.reg q) ∧
      (∀ a, t.mem.read a = if a = s.mem.read (s.pc + 1#8) then s.reg r else s.mem.read a) ∧
      t.fetchWindow = [s.pc + 3#8, s.pc + 4#8, s.pc + 5#8].map fun a =>
        if a = s.mem.read (s.pc + 1#8) then s.reg r else s.mem.read a

/-- R67, which the spec derives from the instruction rules: the accesses of one step by opcode, in order; a step that faults on a register
code makes no data access. -/
def Obligations.StepMakesTheListedAccesses : Prop :=
  ∀ s, Accepts s →
    let op := s.mem.read s.pc
    let b1 := s.mem.read (s.pc + 1#8)
    let b2 := s.mem.read (s.pc + 2#8)
    let two : List Access := [.fetch s.pc, .operand (s.pc + 1#8)]
    let three : List Access := [.fetch s.pc, .operand (s.pc + 1#8), .operand (s.pc + 2#8)]
    (UndefinedOpcode op ∨ op = 0xFF#8 → stepAccesses s = [.fetch s.pc]) ∧
    (op ∈ [0x40#8, 0x41#8, 0x50#8, 0x60#8, 0x80#8, 0x81#8, 0x82#8, 0x83#8] → stepAccesses s = two) ∧
    (op ∈ [0x10#8, 0x11#8, 0x20#8, 0x21#8, 0x30#8, 0x31#8, 0x70#8, 0x71#8] → stepAccesses s = three) ∧
    (op ∈ [0x12#8, 0x22#8, 0x32#8, 0x72#8] →
      stepAccesses s = if 3 ≤ b1.toNat then three else three ++ [.read b2]) ∧
    (op = 0x13#8 → (3 ≤ b2.toNat → stepAccesses s = three) ∧
      ∀ r, b2 = regCode r → stepAccesses s = three ++ [.write b1 (s.reg r)])

/-- A step reads and writes memory only through its listed accesses (R67, R72, R73): with any other memory that agrees on the cells
they read, it makes the same accesses and does the same to every other item of state; written cells hold the byte written, every
other cell what it held. -/
def Obligations.StepDependsOnlyOnListedAccesses : Prop :=
  ∀ s m, (∀ x ∈ stepAccesses s, ∀ a, x.readAddr = some a → m.read a = s.mem.read a) →
    stepAccesses { s with mem := m } = stepAccesses s ∧
    ∃ t n, step s = .next t ∧ step { s with mem := m } = .next { t with mem := n } ∧
      ∀ a, (∃ v, Access.write a v ∈ stepAccesses s ∧ t.mem.read a = v ∧ n.read a = v) ∨
        (t.mem.read a = s.mem.read a ∧ n.read a = m.read a)

/-- R111, the spec's summary of the instruction rules: those and the datapath steered by the decoder's control word are one machine. -/
def Obligations.ControlWordDatapathEqualsInstructionRules : Prop :=
  ∀ o b1 b2 s, exec (o.instr b1 b2) s = .next (runDatapath o b1 b2 s)

/-! ## The invariant -/

/-- Power-on meets the invariant for every `MEM_INIT`, and so does the state after reset. -/
def Obligations.PowerOnMeetsInvariant : Prop :=
  State.reset.Inv ∧ ∀ m : Memory, m.wf = true → (State.powerOn m).Inv

/-- Every step keeps the invariant (R46, R54, R60, R230, R243). Its `memory` clause is about the model's own representation
(entry 15), and the spec derives R46 and R60. -/
def Obligations.StepKeepsInvariant : Prop := ∀ s t, s.Inv → step s = .next t → t.Inv

/-- Every state that power-on, steps and the host's operations lead to meets the invariant (R46, R54, R276). -/
def Obligations.ReachableStatesMeetInvariant : Prop := ∀ s, Reachable s → s.Inv

/-! ## The host's operations -/

/-- R278, R279: what run-to-halt answers with is the end of a run: a terminal state, and an outcome that is not `continued`. -/
def Obligations.RunToHaltStopsOnlyAtAnEnd : Prop :=
  ∀ fuel s t o, runToHalt fuel s = some (t, o) → t.Ended ∧ o ≠ .continued

/-- A loaded image stands from address 0x00 on, one cell a byte, and changes nothing else (R127, R277). -/
def Obligations.LoadedImageStandsFromAddressZero : Prop :=
  ∀ image s, image.length ≤ 256 →
    (∀ k, (h : k < image.length) → (loadImage image s).mem.read (BitVec.ofNat 8 k) = image[k]) ∧
    (∀ a, image.length ≤ a.toNat → (loadImage image s).mem.read a = s.mem.read a) ∧
    loadImage image s = { s with mem := (loadImage image s).mem }

/-- R51: each byte of the output stream is observed as its two upper-case hexadecimal digits, in order, followed by a newline; the text
is empty for no byte and grows at its end. It holds whatever the newline's characters are (entry 8). -/
def Obligations.OutputIsObservedAsHexLines : Prop :=
  ∀ s : State, s.outLines.length = s.out.length ∧
    (∀ k, (h : k < s.out.length) →
      ∃ x y : Nat, x < 16 ∧ y < 16 ∧ s.out[k].toNat = 16 * x + y ∧
        s.outLines[k]? = some ["0123456789ABCDEF".toList.getD x ' ', "0123456789ABCDEF".toList.getD y ' ']) ∧
    (s.out = [] → s.outText = []) ∧ Config.newlineText ≠ [] ∧
    ∀ older v, s.out = older ++ [v] →
      ∃ x y : Nat, x < 16 ∧ y < 16 ∧ v.toNat = 16 * x + y ∧
        s.outText = ({ s with out := older } : State).outText ++
          ["0123456789ABCDEF".toList.getD x ' ', "0123456789ABCDEF".toList.getD y ' '] ++ Config.newlineText

/-- What the assembler makes of one line is one well-formed instruction, as long as its words are many (R100, R122, R125). -/
def Obligations.AssembledLineDecodesToInstruction : Prop :=
  ∀ js st words bytes, words ≠ [] → assembleWords js st words = .ok bytes →
    bytes.length = words.length ∧ ∃ i, decode bytes = .ok (i, []) ∧ i.wf = true

/-- Labels are the addresses of their lines (R122, R126): if a text's lines pass both passes, the bytes of every line stand where
the lines before it end, and a line's label has that address, modulo 256. -/
def Obligations.LabelsAreTheAddressesOfTheirLines : Prop :=
  ∀ js ls st bytes, pass1 0x00#8 [] ls = .ok st → pass2 js st ls = .ok bytes →
    ∀ k l, ls[k]? = some l →
      (∃ bs, assembleWords js st l.words = .ok bs ∧ (bytes.drop (bytesBefore ls k)).take bs.length = bs) ∧
      ∀ n, l.label = some n → st.lookup n = some (BitVec.ofNat 8 (bytesBefore ls k))

/-- R278: what a run leaves that the host cancels after at least one step: `running`, and the state of the last completed step, where
as many accepted steps lead, none of which halts or faults; a run that such steps do not lead on is not cancelled. A JMP to its own address runs forever: however many steps are made, the run has not
ended. That the model counts the steps to the cancellation is its choice (entry 11). -/
def Obligations.CancelledRunLeavesLastCompletedStep : Prop :=
  (∀ calls s t, runCalls calls s = (t, none) ↔ StepsOn calls s t) ∧
  (∀ calls s t, runCalls (calls + 1) s = (t, none) → t.run = .running ∧ runToHalt (calls + 1) s = none) ∧
  ∀ calls s, Accepts s → s.mem.read s.pc = 0x60#8 → s.mem.read (s.pc + 1#8) = s.pc →
    runCalls (calls + 1) s = ({ s with ir := 0x60#8, run := .running }, none)
end

