-- ==== Sys2Proof/Laws/Decode.lean ====
section
/-! SUPPORT. The opcode map and its inverse, and the parts of an instruction. -/

namespace Sys2Proof

/-- The decoder finds every opcode at its byte (R96, R97). -/
@[simp] theorem decodeOpcode_byte (o : Op) : decodeOpcode o.byte = some o := by cases o <;> decide

/-- A byte decodes to an opcode exactly when it is that opcode's byte. -/
theorem decodeOpcode_eq_some_iff (b : Byte) (o : Op) : decodeOpcode b = some o ↔ b = o.byte := by
  constructor
  · intro h
    have hb := List.find?_some (p := fun p : Op => p.byte == b) h
    exact (beq_iff_eq.1 hb).symm
  · rintro rfl
    exact decodeOpcode_byte o

/-- `Op.all` lists every opcode. -/
theorem Op.mem_all (o : Op) : o ∈ Op.all := by cases o <;> decide

/-- No two opcodes share a byte. -/
theorem Op.byte_injective {o p : Op} (h : o.byte = p.byte) : o = p := by
  have := decodeOpcode_byte o
  rw [h, decodeOpcode_byte] at this
  exact (Option.some.inj this).symm

@[simp] theorem Op.instr_op (o : Op) (b1 b2 : Byte) : (o.instr b1 b2).op = o := by cases o <;> rfl

/-- An instruction is its opcode with its operand bytes. -/
theorem Instr.eq_instr (i : Instr) : i.op.instr (i.operands.getD 0 0#8) (i.operands.getD 1 0#8) = i := by cases i <;> rfl

/-- An instruction has as many operand bytes as its format says (R91). -/
theorem Instr.operands_length (i : Instr) : i.operands.length = i.op.format.operandCount := by cases i <;> rfl

/-- The operand bytes of an assembled instruction are the first bytes given. -/
theorem Op.instr_operands (o : Op) (b1 b2 : Byte) : (o.instr b1 b2).operands = [b1, b2].take o.format.operandCount := by
  cases o <;> rfl

end Sys2Proof
end

