-- ==== Sys2Proof/Laws/State.lean ====
section
/-! SUPPORT. What each update of the state does to each field, one lemma per field per update, so that no proof unfolds a
record update. -/

namespace Sys2Proof.Machine

variable (s : State)

/-! `State.advance` -/

@[simp] theorem State.advance_pc (n : Nat) : (s.advance n).pc = s.pc + BitVec.ofNat 8 n := rfl
@[simp] theorem State.advance_ir (n : Nat) : (s.advance n).ir = s.ir := rfl
@[simp] theorem State.advance_r0 (n : Nat) : (s.advance n).r0 = s.r0 := rfl
@[simp] theorem State.advance_r1 (n : Nat) : (s.advance n).r1 = s.r1 := rfl
@[simp] theorem State.advance_r2 (n : Nat) : (s.advance n).r2 = s.r2 := rfl
@[simp] theorem State.advance_zf (n : Nat) : (s.advance n).zf = s.zf := rfl
@[simp] theorem State.advance_sf (n : Nat) : (s.advance n).sf = s.sf := rfl
@[simp] theorem State.advance_mem (n : Nat) : (s.advance n).mem = s.mem := rfl
@[simp] theorem State.advance_out (n : Nat) : (s.advance n).out = s.out := rfl
@[simp] theorem State.advance_run (n : Nat) : (s.advance n).run = s.run := rfl
@[simp] theorem State.advance_flt (n : Nat) : (s.advance n).flt = s.flt := rfl
@[simp] theorem State.advance_reg (n : Nat) (r : Reg) : (s.advance n).reg r = s.reg r := by cases r <;> rfl

/-! `State.jump` -/

@[simp] theorem State.jump_pc (t : Byte) : (s.jump t).pc = t := rfl
@[simp] theorem State.jump_ir (t : Byte) : (s.jump t).ir = s.ir := rfl
@[simp] theorem State.jump_r0 (t : Byte) : (s.jump t).r0 = s.r0 := rfl
@[simp] theorem State.jump_r1 (t : Byte) : (s.jump t).r1 = s.r1 := rfl
@[simp] theorem State.jump_r2 (t : Byte) : (s.jump t).r2 = s.r2 := rfl
@[simp] theorem State.jump_zf (t : Byte) : (s.jump t).zf = s.zf := rfl
@[simp] theorem State.jump_sf (t : Byte) : (s.jump t).sf = s.sf := rfl
@[simp] theorem State.jump_mem (t : Byte) : (s.jump t).mem = s.mem := rfl
@[simp] theorem State.jump_out (t : Byte) : (s.jump t).out = s.out := rfl
@[simp] theorem State.jump_run (t : Byte) : (s.jump t).run = s.run := rfl
@[simp] theorem State.jump_flt (t : Byte) : (s.jump t).flt = s.flt := rfl
@[simp] theorem State.jump_reg (t : Byte) (r : Reg) : (s.jump t).reg r = s.reg r := by cases r <;> rfl

/-! `State.store` -/

@[simp] theorem State.store_pc (a v : Byte) : (s.store a v).pc = s.pc := rfl
@[simp] theorem State.store_ir (a v : Byte) : (s.store a v).ir = s.ir := rfl
@[simp] theorem State.store_r0 (a v : Byte) : (s.store a v).r0 = s.r0 := rfl
@[simp] theorem State.store_r1 (a v : Byte) : (s.store a v).r1 = s.r1 := rfl
@[simp] theorem State.store_r2 (a v : Byte) : (s.store a v).r2 = s.r2 := rfl
@[simp] theorem State.store_zf (a v : Byte) : (s.store a v).zf = s.zf := rfl
@[simp] theorem State.store_sf (a v : Byte) : (s.store a v).sf = s.sf := rfl
@[simp] theorem State.store_mem (a v : Byte) : (s.store a v).mem = s.mem.write a v := rfl
@[simp] theorem State.store_out (a v : Byte) : (s.store a v).out = s.out := rfl
@[simp] theorem State.store_run (a v : Byte) : (s.store a v).run = s.run := rfl
@[simp] theorem State.store_flt (a v : Byte) : (s.store a v).flt = s.flt := rfl
@[simp] theorem State.store_reg (a v : Byte) (r : Reg) : (s.store a v).reg r = s.reg r := by cases r <;> rfl

/-! `State.outPush` -/

@[simp] theorem State.outPush_pc (v : Byte) : (s.outPush v).pc = s.pc := rfl
@[simp] theorem State.outPush_ir (v : Byte) : (s.outPush v).ir = s.ir := rfl
@[simp] theorem State.outPush_r0 (v : Byte) : (s.outPush v).r0 = s.r0 := rfl
@[simp] theorem State.outPush_r1 (v : Byte) : (s.outPush v).r1 = s.r1 := rfl
@[simp] theorem State.outPush_r2 (v : Byte) : (s.outPush v).r2 = s.r2 := rfl
@[simp] theorem State.outPush_zf (v : Byte) : (s.outPush v).zf = s.zf := rfl
@[simp] theorem State.outPush_sf (v : Byte) : (s.outPush v).sf = s.sf := rfl
@[simp] theorem State.outPush_mem (v : Byte) : (s.outPush v).mem = s.mem := rfl
@[simp] theorem State.outPush_out (v : Byte) : (s.outPush v).out = s.out ++ [v] := rfl
@[simp] theorem State.outPush_run (v : Byte) : (s.outPush v).run = s.run := rfl
@[simp] theorem State.outPush_flt (v : Byte) : (s.outPush v).flt = s.flt := rfl
@[simp] theorem State.outPush_reg (v : Byte) (r : Reg) : (s.outPush v).reg r = s.reg r := by cases r <;> rfl

/-! `State.raiseFault` -/

@[simp] theorem State.raiseFault_pc (k : Fault) (o : Byte) (c : Option Byte) : (s.raiseFault k o c).pc = s.pc := rfl
@[simp] theorem State.raiseFault_ir (k : Fault) (o : Byte) (c : Option Byte) : (s.raiseFault k o c).ir = s.ir := rfl
@[simp] theorem State.raiseFault_r0 (k : Fault) (o : Byte) (c : Option Byte) : (s.raiseFault k o c).r0 = s.r0 := rfl
@[simp] theorem State.raiseFault_r1 (k : Fault) (o : Byte) (c : Option Byte) : (s.raiseFault k o c).r1 = s.r1 := rfl
@[simp] theorem State.raiseFault_r2 (k : Fault) (o : Byte) (c : Option Byte) : (s.raiseFault k o c).r2 = s.r2 := rfl
@[simp] theorem State.raiseFault_zf (k : Fault) (o : Byte) (c : Option Byte) : (s.raiseFault k o c).zf = s.zf := rfl
@[simp] theorem State.raiseFault_sf (k : Fault) (o : Byte) (c : Option Byte) : (s.raiseFault k o c).sf = s.sf := rfl
@[simp] theorem State.raiseFault_mem (k : Fault) (o : Byte) (c : Option Byte) : (s.raiseFault k o c).mem = s.mem := rfl
@[simp] theorem State.raiseFault_out (k : Fault) (o : Byte) (c : Option Byte) : (s.raiseFault k o c).out = s.out := rfl
@[simp] theorem State.raiseFault_run (k : Fault) (o : Byte) (c : Option Byte) : (s.raiseFault k o c).run = .faulted := rfl
@[simp] theorem State.raiseFault_flt (k : Fault) (o : Byte) (c : Option Byte) : (s.raiseFault k o c).flt = some { reason := k, addr := s.pc, opcode := o, code := c } := rfl
@[simp] theorem State.raiseFault_reg (k : Fault) (o : Byte) (c : Option Byte) (r : Reg) : (s.raiseFault k o c).reg r = s.reg r := by cases r <;> rfl

/-! `State.flagUpdate` -/

@[simp] theorem State.flagUpdate_pc (a b : Byte) : (s.flagUpdate a b).pc = s.pc := rfl
@[simp] theorem State.flagUpdate_ir (a b : Byte) : (s.flagUpdate a b).ir = s.ir := rfl
@[simp] theorem State.flagUpdate_r0 (a b : Byte) : (s.flagUpdate a b).r0 = s.r0 := rfl
@[simp] theorem State.flagUpdate_r1 (a b : Byte) : (s.flagUpdate a b).r1 = s.r1 := rfl
@[simp] theorem State.flagUpdate_r2 (a b : Byte) : (s.flagUpdate a b).r2 = s.r2 := rfl
@[simp] theorem State.flagUpdate_zf (a b : Byte) : (s.flagUpdate a b).zf = (aluSub a b == 0x00#8) := rfl
@[simp] theorem State.flagUpdate_sf (a b : Byte) : (s.flagUpdate a b).sf = (aluSub a b).getLsbD 7 := rfl
@[simp] theorem State.flagUpdate_mem (a b : Byte) : (s.flagUpdate a b).mem = s.mem := rfl
@[simp] theorem State.flagUpdate_out (a b : Byte) : (s.flagUpdate a b).out = s.out := rfl
@[simp] theorem State.flagUpdate_run (a b : Byte) : (s.flagUpdate a b).run = s.run := rfl
@[simp] theorem State.flagUpdate_flt (a b : Byte) : (s.flagUpdate a b).flt = s.flt := rfl
@[simp] theorem State.flagUpdate_reg (a b : Byte) (r : Reg) : (s.flagUpdate a b).reg r = s.reg r := by cases r <;> rfl

/-! `State.fetched` -/

@[simp] theorem State.fetched_pc : (s.fetched).pc = s.pc := rfl
@[simp] theorem State.fetched_ir : (s.fetched).ir = s.opcodeByte := rfl
@[simp] theorem State.fetched_r0 : (s.fetched).r0 = s.r0 := rfl
@[simp] theorem State.fetched_r1 : (s.fetched).r1 = s.r1 := rfl
@[simp] theorem State.fetched_r2 : (s.fetched).r2 = s.r2 := rfl
@[simp] theorem State.fetched_zf : (s.fetched).zf = s.zf := rfl
@[simp] theorem State.fetched_sf : (s.fetched).sf = s.sf := rfl
@[simp] theorem State.fetched_mem : (s.fetched).mem = s.mem := rfl
@[simp] theorem State.fetched_out : (s.fetched).out = s.out := rfl
@[simp] theorem State.fetched_run : (s.fetched).run = .running := rfl
@[simp] theorem State.fetched_flt : (s.fetched).flt = s.flt := rfl
@[simp] theorem State.fetched_reg (r : Reg) : (s.fetched).reg r = s.reg r := by cases r <;> rfl

/-! `State.placeAtPc` -/

@[simp] theorem State.placeAtPc_pc (bs : List Byte) : (s.placeAtPc bs).pc = s.pc := rfl
@[simp] theorem State.placeAtPc_ir (bs : List Byte) : (s.placeAtPc bs).ir = s.ir := rfl
@[simp] theorem State.placeAtPc_r0 (bs : List Byte) : (s.placeAtPc bs).r0 = s.r0 := rfl
@[simp] theorem State.placeAtPc_r1 (bs : List Byte) : (s.placeAtPc bs).r1 = s.r1 := rfl
@[simp] theorem State.placeAtPc_r2 (bs : List Byte) : (s.placeAtPc bs).r2 = s.r2 := rfl
@[simp] theorem State.placeAtPc_zf (bs : List Byte) : (s.placeAtPc bs).zf = s.zf := rfl
@[simp] theorem State.placeAtPc_sf (bs : List Byte) : (s.placeAtPc bs).sf = s.sf := rfl
@[simp] theorem State.placeAtPc_mem (bs : List Byte) : (s.placeAtPc bs).mem = s.mem.writeBytes s.pc bs := rfl
@[simp] theorem State.placeAtPc_out (bs : List Byte) : (s.placeAtPc bs).out = s.out := rfl
@[simp] theorem State.placeAtPc_run (bs : List Byte) : (s.placeAtPc bs).run = s.run := rfl
@[simp] theorem State.placeAtPc_flt (bs : List Byte) : (s.placeAtPc bs).flt = s.flt := rfl
@[simp] theorem State.placeAtPc_reg (bs : List Byte) (r : Reg) : (s.placeAtPc bs).reg r = s.reg r := by cases r <;> rfl

/-! `State.setReg` -/

@[simp] theorem State.setReg_pc (r : Reg) (v : Byte) : (s.setReg r v).pc = s.pc := by cases r <;> rfl
@[simp] theorem State.setReg_ir (r : Reg) (v : Byte) : (s.setReg r v).ir = s.ir := by cases r <;> rfl
@[simp] theorem State.setReg_zf (r : Reg) (v : Byte) : (s.setReg r v).zf = s.zf := by cases r <;> rfl
@[simp] theorem State.setReg_sf (r : Reg) (v : Byte) : (s.setReg r v).sf = s.sf := by cases r <;> rfl
@[simp] theorem State.setReg_mem (r : Reg) (v : Byte) : (s.setReg r v).mem = s.mem := by cases r <;> rfl
@[simp] theorem State.setReg_out (r : Reg) (v : Byte) : (s.setReg r v).out = s.out := by cases r <;> rfl
@[simp] theorem State.setReg_run (r : Reg) (v : Byte) : (s.setReg r v).run = s.run := by cases r <;> rfl
@[simp] theorem State.setReg_flt (r : Reg) (v : Byte) : (s.setReg r v).flt = s.flt := by cases r <;> rfl
@[simp] theorem State.setReg_reg_self (r : Reg) (v : Byte) : (s.setReg r v).reg r = v := by cases r <;> rfl
theorem State.setReg_reg_of_ne (r q : Reg) (v : Byte) (h : q ≠ r) : (s.setReg r v).reg q = s.reg q := by
  cases r <;> cases q <;> first | rfl | exact absurd rfl h

/-! `State.powerOn` and `State.resetCore` -/

@[simp] theorem State.powerOn_pc (m : Memory) : (State.powerOn m).pc = 0x00#8 := rfl
@[simp] theorem State.powerOn_ir (m : Memory) : (State.powerOn m).ir = 0x00#8 := rfl
@[simp] theorem State.powerOn_r0 (m : Memory) : (State.powerOn m).r0 = 0x00#8 := rfl
@[simp] theorem State.powerOn_r1 (m : Memory) : (State.powerOn m).r1 = 0x00#8 := rfl
@[simp] theorem State.powerOn_r2 (m : Memory) : (State.powerOn m).r2 = 0x00#8 := rfl
@[simp] theorem State.powerOn_zf (m : Memory) : (State.powerOn m).zf = false := rfl
@[simp] theorem State.powerOn_sf (m : Memory) : (State.powerOn m).sf = false := rfl
@[simp] theorem State.powerOn_mem (m : Memory) : (State.powerOn m).mem = m := rfl
@[simp] theorem State.powerOn_out (m : Memory) : (State.powerOn m).out = [] := rfl
@[simp] theorem State.powerOn_run (m : Memory) : (State.powerOn m).run = .ready := rfl
@[simp] theorem State.powerOn_flt (m : Memory) : (State.powerOn m).flt = none := rfl
@[simp] theorem State.resetCore_pc : s.resetCore.pc = 0x00#8 := rfl
@[simp] theorem State.resetCore_ir : s.resetCore.ir = 0x00#8 := rfl
@[simp] theorem State.resetCore_r0 : s.resetCore.r0 = 0x00#8 := rfl
@[simp] theorem State.resetCore_r1 : s.resetCore.r1 = 0x00#8 := rfl
@[simp] theorem State.resetCore_r2 : s.resetCore.r2 = 0x00#8 := rfl
@[simp] theorem State.resetCore_zf : s.resetCore.zf = false := rfl
@[simp] theorem State.resetCore_sf : s.resetCore.sf = false := rfl
@[simp] theorem State.resetCore_mem : s.resetCore.mem = s.mem := rfl
@[simp] theorem State.resetCore_out : s.resetCore.out = [] := rfl
@[simp] theorem State.resetCore_run : s.resetCore.run = .ready := rfl
@[simp] theorem State.resetCore_flt : s.resetCore.flt = none := rfl

/-- Two states with the same general registers, read through `reg`, have the same three fields. -/
theorem State.regs_eq_of_reg_eq (s t : State) (h : ∀ r, t.reg r = s.reg r) : t.r0 = s.r0 ∧ t.r1 = s.r1 ∧ t.r2 = s.r2 :=
  ⟨h .r0, h .r1, h .r2⟩

end Sys2Proof.Machine
end

