-- ==== Sys2Proof/Laws/Driver.lean ====
section
/-! SUPPORT. The driver's run, one step at a time, and the rendered output. -/

namespace Sys2Proof.Machine

@[simp] theorem runCalls_zero (s : State) : runCalls 0 s = (s, none) := rfl

/-- The driver's run goes on after a step that continues. -/
theorem runCalls_succ_of_continued (n : Nat) (s t : State) (h : hostStep s = some (t, .continued)) :
    runCalls (n + 1) s = runCalls n t := by
  rw [runCalls, h]

/-- The driver's run ends with a step of any other outcome. -/
theorem runCalls_succ_of_ended (n : Nat) (s t : State) (o : StepOutcome) (h : hostStep s = some (t, o)) (ho : o ≠ .continued) :
    runCalls (n + 1) s = (t, some o) := by
  rw [runCalls, h]
  cases o with
  | continued => exact absurd rfl ho
  | halted | faulted _ | rejected => rfl

/-- Run-to-halt has returned exactly when the driver's run was not cancelled. -/
theorem runToHalt_eq_some_iff (n : Nat) (s t : State) (o : StepOutcome) :
    runToHalt n s = some (t, o) ↔ runCalls n s = (t, some o) := by
  unfold runToHalt
  split <;> simp_all

@[simp] theorem State.outText_nil (s : State) (h : s.out = []) : s.outText = [] := by simp [State.outText, State.outLines, h]

/-- One more byte of output adds its digits and a newline at the end of the text (R51). -/
theorem State.outText_concat (s : State) (older : List Byte) (v : Byte) (h : s.out = older ++ [v]) :
    s.outText = ({ s with out := older } : State).outText ++ hexText v ++ Config.newlineText := by
  simp [State.outText, State.outLines, h]

end Sys2Proof.Machine
end

