-- ==== Sys2Proof/Laws/Memory.lean ====
section
/-! SUPPORT. The laws of memory: a read after a write (R61), and the canonical form that every memory operation keeps. -/

namespace Sys2Proof.Machine

/-! Reading what was written. The laws hold of every list, well formed or not. -/

theorem Memory.lookup_cons_ite (c : Host.Cell) (m : Memory) (j : Nat) :
    List.lookup j (c :: m) = if j = c.1 then some c.2 else m.lookup j := by
  obtain ⟨k, v⟩ := c
  by_cases h : j = k
  · simp [h]
  · simp [List.lookup, beq_false_of_ne h, h]

theorem Memory.lookup_drop_self (m : Memory) (k : Nat) : (Memory.drop m k).lookup k = none := by
  induction m with
  | nil => rfl
  | cons c m ih =>
    rw [Memory.drop] at ih ⊢
    by_cases h : c.1 = k
    · rw [List.filter_cons_of_neg (by simp [h]), ih]
    · rw [List.filter_cons_of_pos (by simp [h]), Memory.lookup_cons_ite, if_neg (Ne.symm h), ih]

theorem Memory.lookup_drop_of_ne (m : Memory) (k j : Nat) (h : j ≠ k) : (Memory.drop m k).lookup j = m.lookup j := by
  induction m with
  | nil => rfl
  | cons c m ih =>
    rw [Memory.drop] at ih ⊢
    by_cases hc : c.1 = k
    · rw [List.filter_cons_of_neg (by simp [hc]), ih, Memory.lookup_cons_ite, if_neg (hc ▸ h)]
    · rw [List.filter_cons_of_pos (by simp [hc]), Memory.lookup_cons_ite, Memory.lookup_cons_ite, ih]

theorem Memory.lookup_place_of_ne (m : Memory) (k j : Nat) (v : Byte) (h : j ≠ k) :
    (Memory.place k v m).lookup j = m.lookup j := by
  induction m with
  | nil => simp [Memory.place, Memory.lookup_cons_ite, h]
  | cons c m ih =>
    unfold Memory.place
    split
    · rw [Memory.lookup_cons_ite, if_neg h]
    · rw [Memory.lookup_cons_ite, Memory.lookup_cons_ite, ih]

theorem Memory.lookup_place_self (m : Memory) (k : Nat) (v : Byte) (h : m.lookup k = none) :
    (Memory.place k v m).lookup k = some v := by
  induction m with
  | nil => simp [Memory.place]
  | cons c m ih =>
    rw [Memory.lookup_cons_ite] at h
    unfold Memory.place
    split
    · rw [Memory.lookup_cons_ite, if_pos rfl]
    · split at h
      · cases h
      · next hk => rw [Memory.lookup_cons_ite, if_neg hk, ih h]

/-- A read after a write to the same cell gives the byte written (R61). -/
@[simp] theorem Memory.read_write_self (m : Memory) (a v : Byte) : (m.write a v).read a = v := by
  unfold Memory.write Memory.read
  split
  · simp [Memory.lookup_drop_self, *]
  · simp [Memory.lookup_place_self, Memory.lookup_drop_self]

/-- A write changes no other cell (R61, R62). -/
theorem Memory.read_write_of_ne (m : Memory) (a b v : Byte) (h : b ≠ a) : (m.write a v).read b = m.read b := by
  have hn : b.toNat ≠ a.toNat := fun e => h (BitVec.eq_of_toNat_eq e)
  unfold Memory.write Memory.read
  split
  · rw [Memory.lookup_drop_of_ne _ _ _ hn]
  · rw [Memory.lookup_place_of_ne _ _ _ _ hn, Memory.lookup_drop_of_ne _ _ _ hn]

theorem Memory.read_write (m : Memory) (a b v : Byte) : (m.write a v).read b = if b = a then v else m.read b := by
  split
  · next h => rw [h, Memory.read_write_self]
  · next h => exact Memory.read_write_of_ne m a b v h

/-! The canonical form. -/

theorem Memory.wf_iff (m : Memory) :
    m.wf = true ↔ m.Pairwise (fun a b => a.1 < b.1) ∧ ∀ c ∈ m, c.1 < Config.memSize ∧ c.2 ≠ Config.unlistedByte := by
  simp [Memory.wf]

theorem Memory.wf_nil : Memory.wf [] = true := by decide

theorem Memory.wf_drop (m : Memory) (k : Nat) (h : m.wf = true) : (Memory.drop m k).wf = true := by
  rw [Memory.wf_iff] at h ⊢
  exact ⟨h.1.filter _, fun c hc => h.2 c (List.mem_filter.1 hc).1⟩

theorem Memory.mem_place (m : Memory) (k : Nat) (v : Byte) (c : Host.Cell) :
    c ∈ Memory.place k v m ↔ c = (k, v) ∨ c ∈ m := by
  induction m with
  | nil => simp [Memory.place]
  | cons d m ih =>
    unfold Memory.place
    split
    · simp
    · simp only [List.mem_cons, ih]
      tauto

theorem Memory.pairwise_place (m : Memory) (k : Nat) (v : Byte) (h : m.Pairwise fun a b => a.1 < b.1)
    (hk : ∀ c ∈ m, c.1 ≠ k) : (Memory.place k v m).Pairwise fun a b => a.1 < b.1 := by
  induction m with
  | nil => simp [Memory.place]
  | cons d m ih =>
    rw [List.pairwise_cons] at h
    unfold Memory.place
    split
    · next hd =>
      refine List.pairwise_cons.2 ⟨fun c hc => ?_, List.pairwise_cons.2 h⟩
      rcases List.mem_cons.1 hc with rfl | hc
      · exact hd
      · exact Nat.lt_trans hd (h.1 c hc)
    · next hd =>
      refine List.pairwise_cons.2 ⟨fun c hc => ?_, ih h.2 fun c hc => hk c (List.mem_cons_of_mem _ hc)⟩
      rcases (Memory.mem_place m k v c).1 hc with rfl | hc
      · have := hk d List.mem_cons_self
        show d.1 < k
        omega
      · exact h.1 c hc

/-- A write keeps the canonical form. -/
theorem Memory.wf_write (m : Memory) (a v : Byte) (h : m.wf = true) : (m.write a v).wf = true := by
  unfold Memory.write
  split
  · exact Memory.wf_drop m _ h
  · next hv =>
    have hd := (Memory.wf_iff _).1 (Memory.wf_drop m a.toNat h)
    refine (Memory.wf_iff _).2 ⟨Memory.pairwise_place _ _ _ hd.1 fun c hc => ?_, fun c hc => ?_⟩
    · simpa using (List.mem_filter.1 hc).2
    · rcases (Memory.mem_place _ _ _ _).1 hc with rfl | hc
      · exact ⟨a.isLt, hv⟩
      · exact hd.2 c hc

theorem Memory.wf_writeBytes (m : Memory) (a : Byte) (bs : List Byte) (h : m.wf = true) :
    (m.writeBytes a bs).wf = true := by
  induction bs generalizing m a with
  | nil => exact h
  | cons b bs ih => exact ih _ _ (Memory.wf_write m a b h)

theorem Memory.wf_patch (m : Memory) (ps : List (Byte × Byte)) (h : m.wf = true) : (m.patch ps).wf = true := by
  induction ps generalizing m with
  | nil => exact h
  | cons p ps ih => exact ih _ (Memory.wf_write m p.1 p.2 h)

end Sys2Proof.Machine
end

