-- ==== Sys2Proof/Laws/Ops.lean ====
section
/-! SUPPORT. What the shared operations can do: the register-code decode (R104) and the register check before an instruction's
effect (R105). -/

namespace Sys2Proof.Machine

/-- Every register's code selects that register (R32). -/
@[simp] theorem regOfCode_regCode (r : Reg) : regOfCode (regCode r) = some r := by cases r <;> decide

/-- The register-code decode, whole: a byte is a register's code, or it is 0x03 or above and selects nothing (R95, R104). -/
theorem regOfCode_cases (b : Byte) : (∃ r, b = regCode r ∧ regOfCode b = some r) ∨ (3 ≤ b.toNat ∧ regOfCode b = none) := by
  unfold regOfCode
  by_cases h0 : b = 0x00#8
  · exact .inl ⟨.r0, by simp [h0, regCode]⟩
  by_cases h1 : b = 0x01#8
  · exact .inl ⟨.r1, by simp [h1, regCode]⟩
  by_cases h2 : b = 0x02#8
  · exact .inl ⟨.r2, by simp [h2, regCode]⟩
  · exact .inr ⟨by bv_omega, by rw [if_neg h0, if_neg h1, if_neg h2]⟩

theorem regOfCode_eq_none_iff (b : Byte) : regOfCode b = none ↔ 3 ≤ b.toNat := by
  rcases regOfCode_cases b with ⟨r, rfl, h⟩ | ⟨h3, h⟩
  · simp only [h, reduceCtorEq, false_iff]
    cases r <;> decide
  · simp [h, h3]

theorem regOfCode_eq_some_iff (b : Byte) (r : Reg) : regOfCode b = some r ↔ b = regCode r := by
  constructor
  · intro h
    rcases regOfCode_cases b with ⟨q, rfl, hq⟩ | ⟨-, hn⟩
    · rw [h] at hq
      cases hq
      rfl
    · simp [hn] at h
  · rintro rfl
    exact regOfCode_regCode r

/-- The well-formedness check is the register-code decode. -/
theorem isRegCode_iff (b : Byte) : isRegCode b = true ↔ ∃ r, regOfCode b = some r := by
  rw [← Option.isSome_iff_exists, ← Option.ne_none_iff_isSome, ne_eq, regOfCode_eq_none_iff]
  simp [isRegCode]

@[simp] theorem withReg_regCode (o : Op) (r : Reg) (s : State) (k : Reg → State) : withReg o (regCode r) s k = k r := by
  simp [withReg]

theorem withReg_of_invalid (o : Op) (b : Byte) (s : State) (k : Reg → State) (h : 3 ≤ b.toNat) :
    withReg o b s k = s.raiseFault .invalidRegisterCode o.byte (some b) := by
  simp [withReg, (regOfCode_eq_none_iff b).2 h]

/-- All that the register check can do: it selects a register and goes on, or it raises `InvalidRegisterCode` (R104). -/
theorem withReg_cases (o : Op) (b : Byte) (s : State) (k : Reg → State) :
    (∃ r, b = regCode r ∧ withReg o b s k = k r) ∨
      (3 ≤ b.toNat ∧ withReg o b s k = s.raiseFault .invalidRegisterCode o.byte (some b)) := by
  rcases regOfCode_cases b with ⟨r, rfl, -⟩ | ⟨h, -⟩
  · exact .inl ⟨r, rfl, withReg_regCode o r s k⟩
  · exact .inr ⟨h, withReg_of_invalid o b s k h⟩

/-- A property that holds after a fault and after every continuation holds after the register check. -/
theorem withReg_induct (P : State → Prop) (o : Op) (b : Byte) (s : State) (k : Reg → State)
    (hf : 3 ≤ b.toNat → P (s.raiseFault .invalidRegisterCode o.byte (some b))) (hk : ∀ r, P (k r)) : P (withReg o b s k) := by
  rcases withReg_cases o b s k with ⟨r, -, h⟩ | ⟨h3, h⟩
  · exact h ▸ hk r
  · exact h ▸ hf h3

/-- The branch operation goes to one of two places and changes the PC alone (R196). -/
theorem State.branch_eq (s : State) (c : Bool) (t : Byte) : s.branch c t = { s with pc := if c then t else s.pc + 2#8 } := by
  cases c <;> rfl

end Sys2Proof.Machine
end

