-- ==== Sys2Proof/Laws/PerInstr.lean ====
section
/-! SUPPORT. Statements made per instruction, one lemma per constructor. -/

namespace Sys2Proof.Laws.EncodedLength

/-- An instruction's encoding is as long as its opcode says: the opcode byte and one byte per operand (R90, R92, R100). -/
def Statement (i : Instr) : Prop := (encode i).length = i.op.length

theorem movRegImm (d i : Byte) : Statement (.movRegImm d i) := rfl
theorem movRegReg (d r : Byte) : Statement (.movRegReg d r) := rfl
theorem movRegMem (d m : Byte) : Statement (.movRegMem d m) := rfl
theorem movMemReg (m r : Byte) : Statement (.movMemReg m r) := rfl
theorem addRegImm (d i : Byte) : Statement (.addRegImm d i) := rfl
theorem addRegReg (d r : Byte) : Statement (.addRegReg d r) := rfl
theorem addRegMem (d m : Byte) : Statement (.addRegMem d m) := rfl
theorem subRegImm (d i : Byte) : Statement (.subRegImm d i) := rfl
theorem subRegReg (d r : Byte) : Statement (.subRegReg d r) := rfl
theorem subRegMem (d m : Byte) : Statement (.subRegMem d m) := rfl
theorem incReg (d : Byte) : Statement (.incReg d) := rfl
theorem decReg (d : Byte) : Statement (.decReg d) := rfl
theorem outReg (d : Byte) : Statement (.outReg d) := rfl
theorem jmp (t : Byte) : Statement (.jmp t) := rfl
theorem cmpRegImm (d i : Byte) : Statement (.cmpRegImm d i) := rfl
theorem cmpRegReg (d r : Byte) : Statement (.cmpRegReg d r) := rfl
theorem cmpRegMem (d m : Byte) : Statement (.cmpRegMem d m) := rfl
theorem je (t : Byte) : Statement (.je t) := rfl
theorem jne (t : Byte) : Statement (.jne t) := rfl
theorem jg (t : Byte) : Statement (.jg t) := rfl
theorem jl (t : Byte) : Statement (.jl t) := rfl
theorem hlt : Statement .hlt := rfl

end Sys2Proof.Laws.EncodedLength
end

