-- ==== Sys2Proof/Laws/Step.lean ====
section
/-! SUPPORT. What a step can do, said once: it is rejected, it faults on an undefined opcode, or it executes the instruction that
the opcode byte selects with the two bytes after it. -/

namespace Sys2Proof.Machine

theorem State.accepts_iff (s : State) : s.accepts = true ↔ s.run = .ready ∨ s.run = .running := by
  cases h : s.run <;> simp [State.accepts, h]

/-- The decoder on three bytes is the opcode map: three bytes are enough for every opcode (R92). -/
theorem State.fetchInstr_eq (s : State) :
    s.fetchInstr = (decodeOpcode s.opcodeByte).map fun o => o.instr s.operand1 s.operand2 := by
  unfold State.fetchInstr State.fetchWindow decode
  cases h : decodeOpcode s.opcodeByte with
  | none => simp only [h, Option.map_none]
  | some o =>
    simp only [h, Option.map_some]
    cases o <;> rfl

/-- All that a step can do (R110). -/
theorem step_cases (s : State) :
    (s.accepts = false ∧ step s = .next s) ∨
      (s.accepts = true ∧ decodeOpcode s.opcodeByte = none ∧ step s = .next s.unknownOpcode) ∨
      ∃ o : Op, s.accepts = true ∧ s.opcodeByte = o.byte ∧ step s = exec (o.instr s.operand1 s.operand2) s.fetched := by
  unfold step
  rw [State.fetchInstr_eq]
  cases ha : s.accepts with
  | false => exact .inl ⟨rfl, rfl⟩
  | true =>
    cases hd : decodeOpcode s.opcodeByte with
    | none => exact .inr (.inl ⟨rfl, rfl, rfl⟩)
    | some o => exact .inr (.inr ⟨o, rfl, (decodeOpcode_eq_some_iff _ _).1 hd, rfl⟩)

/-- A step whose opcode byte is `o`'s executes `o`'s instruction from the fetched state. -/
theorem step_of_opcode (s : State) (o : Op) (ha : s.accepts = true) (ho : s.opcodeByte = o.byte) :
    step s = exec (o.instr s.operand1 s.operand2) s.fetched := by
  simp [step, State.fetchInstr_eq, ha, ho]

/-- The opcodes that write a general register (R111). -/
def registerWriters : List Op :=
  [.movRegImm, .movRegReg, .movRegMem, .addRegImm, .addRegReg, .addRegMem, .subRegImm, .subRegReg, .subRegMem, .incReg, .decReg]

/-- An opcode's register bytes are register codes, as far as its format has any besides a lone `B2` (R95). -/
def RegisterBytesValid (o : Op) (s : State) : Prop :=
  (∃ r, s.operand1 = regCode r) ∧ (o.format = .rr → ∃ r, s.operand2 = regCode r)

/-- `c` is the register-position byte that the check of `o` fails on: `B1`, or `B2` after a valid `B1`, or the `B2` of a store
(R95, R105). -/
def FailsCheckOn (o : Op) (c : Byte) (s : State) : Prop :=
  3 ≤ c.toNat ∧
    ((o.format ∈ [.r, .ri, .rm, .rr] ∧ c = s.operand1) ∨
      (o.format = .rr ∧ (∃ r, s.operand1 = regCode r) ∧ c = s.operand2) ∨ (o.format = .mr ∧ c = s.operand2))

/-- All that an accepted step can do, by the kind of its instruction: what holds after each kind of effect holds after the step,
which always answers a next state. -/
theorem step_induct (P : State → Prop) (s : State) (ha : s.accepts = true)
    (unknown : decodeOpcode s.opcodeByte = none → P s.unknownOpcode)
    (fault : ∀ o c, s.opcodeByte = o.byte → FailsCheckOn o c s →
      P (s.fetched.raiseFault .invalidRegisterCode o.byte (some c)))
    (register : ∀ o ∈ registerWriters, s.opcodeByte = o.byte → RegisterBytesValid o s →
      ∀ d v, P ((s.fetched.setReg d v).advance o.length))
    (store : ∀ r, s.opcodeByte = 0x13#8 → s.operand2 = regCode r → P ((s.fetched.store s.operand1 (s.reg r)).advance 3))
    (output : ∀ r, s.opcodeByte = 0x50#8 → s.operand1 = regCode r → P ((s.fetched.outPush (s.reg r)).advance 2))
    (flags : ∀ o ∈ [Op.cmpRegImm, .cmpRegReg, .cmpRegMem], s.opcodeByte = o.byte → RegisterBytesValid o s →
      ∀ a b, P ((s.fetched.flagUpdate a b).advance 3))
    (branch : ∀ o ∈ [Op.jmp, .je, .jne, .jg, .jl], s.opcodeByte = o.byte → ∀ c, P (s.fetched.branch c s.operand1))
    (halt : s.opcodeByte = 0xFF#8 → P { s.fetched with run := .halted }) : ∃ t, step s = .next t ∧ P t := by
  rcases step_cases s with ⟨h, -⟩ | ⟨-, hd, h⟩ | ⟨o, -, ho, h⟩
  · rw [ha] at h; cases h
  · exact ⟨_, h, unknown hd⟩
  rw [h]
  have one : ∀ (b : Byte) (k : Reg → State), (3 ≤ b.toNat → P (s.fetched.raiseFault .invalidRegisterCode o.byte (some b))) →
      (∀ r, b = regCode r → P (k r)) → P (withReg o b s.fetched k) := fun b k h1 h2 => by
    rcases withReg_cases o b s.fetched k with ⟨r, hr, h⟩ | ⟨h3, h⟩
    · exact h ▸ h2 r hr
    · exact h ▸ h1 h3
  have first (hm : o.format ∈ [.r, .ri, .rm, .rr]) (h3 : 3 ≤ s.operand1.toNat) :
      P (s.fetched.raiseFault .invalidRegisterCode o.byte (some s.operand1)) := fault o _ ho ⟨h3, .inl ⟨hm, rfl⟩⟩
  have second (hm : o.format = .rr) (hr : ∃ r, s.operand1 = regCode r) (h3 : 3 ≤ s.operand2.toNat) :
      P (s.fetched.raiseFault .invalidRegisterCode o.byte (some s.operand2)) :=
    fault o _ ho ⟨h3, .inr (.inl ⟨hm, hr, rfl⟩)⟩
  cases o
  case jmp => exact ⟨_, rfl, branch .jmp (by simp) ho true⟩
  case je => exact ⟨_, rfl, branch .je (by simp) ho _⟩
  case jne => exact ⟨_, rfl, branch .jne (by simp) ho _⟩
  case jg => exact ⟨_, rfl, branch .jg (by simp) ho _⟩
  case jl => exact ⟨_, rfl, branch .jl (by simp) ho _⟩
  case hlt => exact ⟨_, rfl, halt ho⟩
  case outReg =>
    refine ⟨_, rfl, one _ _ (first (by simp [Op.format])) fun r hr => ?_⟩
    rw [State.fetched_reg]
    exact output r ho hr
  case movMemReg =>
    refine ⟨_, rfl, one _ _ (fun h3 => fault _ _ ho ⟨h3, .inr (.inr ⟨rfl, rfl⟩)⟩) fun r hr => ?_⟩
    rw [State.fetched_reg]
    exact store r ho hr
  all_goals first
    | exact ⟨_, rfl, one _ _ (first (by simp [Op.format])) fun r hr =>
        register _ (by simp [registerWriters]) ho ⟨⟨r, hr⟩, fun h => by cases h⟩ _ _⟩
    | exact ⟨_, rfl, one _ _ (first (by simp [Op.format])) fun r hr =>
        flags _ (by simp) ho ⟨⟨r, hr⟩, fun h => by cases h⟩ _ _⟩
    | exact ⟨_, rfl, one _ _ (first (by simp [Op.format])) fun r hr => one _ _ (second rfl ⟨r, hr⟩) fun q hq =>
        register _ (by simp [registerWriters]) ho ⟨⟨r, hr⟩, fun _ => ⟨q, hq⟩⟩ _ _⟩
    | exact ⟨_, rfl, one _ _ (first (by simp [Op.format])) fun r hr => one _ _ (second rfl ⟨r, hr⟩) fun q hq =>
        flags _ (by simp) ho ⟨⟨r, hr⟩, fun _ => ⟨q, hq⟩⟩ _ _⟩

end Sys2Proof.Machine
end

