-- ==== Sys2Proof/Tests/Slice0.lean ====
section
/-! SUPPORT. Tests. Expected values are those of spec/95_test_vectors.md (E, V and P numbers are its examples, vectors and
programs) and of spec/30_encoding.md R91 and R96, none of them the model's own answer. Then, for every statement of
Obligations.lean with hypotheses, a witness that they can be met together. -/

namespace Sys2Proof.Tests

open Sys2Proof.Machine Sys2Proof.Claims

/-- Running, with `bytes` in memory from `pc` on, every other item as after reset. -/
def at' (pc : Byte) (bytes : List Byte) : State := { State.reset with pc := pc, run := .running, mem := Memory.writeBytes [] pc bytes }

/-- `s` with the byte `v` in cell `a`. -/
def poke (a v : Byte) (s : State) : State := { s with mem := s.mem.write a v }

/-- The state a step answers with. -/
def after (s : State) : State :=
  match step s with
  | .next t => t
  | .fault _ | .refused _ => s

/-- The registers in order. -/
def regs (s : State) : List Byte := [s.r0, s.r1, s.r2]

/-! Well-formedness: a register position holds 0x00, 0x01 or 0x02 (R95). Each check refuses an ill-formed term. -/

theorem test_ill_formed_data_transfer :
    (Instr.movRegImm 0x03#8 0x00#8).wf = false ∧ (Instr.movRegReg 0x03#8 0x00#8).wf = false ∧
    (Instr.movRegReg 0x00#8 0xFF#8).wf = false ∧ (Instr.movRegMem 0x03#8 0x00#8).wf = false ∧
    (Instr.movMemReg 0x00#8 0x03#8).wf = false := by decide

theorem test_ill_formed_arithmetic :
    (Instr.addRegImm 0x03#8 0x00#8).wf = false ∧ (Instr.addRegReg 0x03#8 0x00#8).wf = false ∧
    (Instr.addRegReg 0x00#8 0xFF#8).wf = false ∧ (Instr.addRegMem 0x03#8 0x00#8).wf = false ∧
    (Instr.subRegImm 0x03#8 0x00#8).wf = false ∧ (Instr.subRegReg 0x03#8 0x00#8).wf = false ∧
    (Instr.subRegReg 0x00#8 0xFF#8).wf = false ∧ (Instr.subRegMem 0x03#8 0x00#8).wf = false ∧
    (Instr.incReg 0x03#8).wf = false ∧ (Instr.decReg 0x03#8).wf = false := by decide

theorem test_ill_formed_output :
    (Instr.outReg 0x03#8).wf = false := by decide

theorem test_ill_formed_compare :
    (Instr.cmpRegImm 0x03#8 0x00#8).wf = false ∧ (Instr.cmpRegReg 0x03#8 0x00#8).wf = false ∧
    (Instr.cmpRegReg 0x00#8 0xFF#8).wf = false ∧ (Instr.cmpRegMem 0x03#8 0x00#8).wf = false := by decide

theorem test_well_formed :
    (Instr.movRegImm 0x02#8 0xFF#8).wf = true ∧ (Instr.movMemReg 0xFF#8 0x02#8).wf = true ∧ (Instr.jmp 0x03#8).wf = true ∧
    Instr.hlt.wf = true := by decide

/-! Decoding: one word for every constructor, bit by bit as R91 and R96 give it, first byte first. -/

theorem test_decode_movRegImm :
    (decode [0b00010000#8, 0b00000010#8, 0b01111111#8]).toOption = some ((.movRegImm 0x02#8 0x7F#8), []) ∧
    encode (.movRegImm 0x02#8 0x7F#8) = [0b00010000#8, 0b00000010#8, 0b01111111#8] := by decide

theorem test_decode_movRegReg :
    (decode [0b00010001#8, 0b00000001#8, 0b00000010#8]).toOption = some ((.movRegReg 0x01#8 0x02#8), []) ∧
    encode (.movRegReg 0x01#8 0x02#8) = [0b00010001#8, 0b00000001#8, 0b00000010#8] := by decide

theorem test_decode_movRegMem :
    (decode [0b00010010#8, 0b00000001#8, 0b10100101#8]).toOption = some ((.movRegMem 0x01#8 0xA5#8), []) ∧
    encode (.movRegMem 0x01#8 0xA5#8) = [0b00010010#8, 0b00000001#8, 0b10100101#8] := by decide

theorem test_decode_movMemReg :
    (decode [0b00010011#8, 0b01011100#8, 0b00000010#8]).toOption = some ((.movMemReg 0x5C#8 0x02#8), []) ∧
    encode (.movMemReg 0x5C#8 0x02#8) = [0b00010011#8, 0b01011100#8, 0b00000010#8] := by decide

theorem test_decode_addRegImm :
    (decode [0b00100000#8, 0b00000010#8, 0b01111111#8]).toOption = some ((.addRegImm 0x02#8 0x7F#8), []) ∧
    encode (.addRegImm 0x02#8 0x7F#8) = [0b00100000#8, 0b00000010#8, 0b01111111#8] := by decide

theorem test_decode_addRegReg :
    (decode [0b00100001#8, 0b00000001#8, 0b00000010#8]).toOption = some ((.addRegReg 0x01#8 0x02#8), []) ∧
    encode (.addRegReg 0x01#8 0x02#8) = [0b00100001#8, 0b00000001#8, 0b00000010#8] := by decide

theorem test_decode_addRegMem :
    (decode [0b00100010#8, 0b00000001#8, 0b10100101#8]).toOption = some ((.addRegMem 0x01#8 0xA5#8), []) ∧
    encode (.addRegMem 0x01#8 0xA5#8) = [0b00100010#8, 0b00000001#8, 0b10100101#8] := by decide

theorem test_decode_subRegImm :
    (decode [0b00110000#8, 0b00000010#8, 0b01111111#8]).toOption = some ((.subRegImm 0x02#8 0x7F#8), []) ∧
    encode (.subRegImm 0x02#8 0x7F#8) = [0b00110000#8, 0b00000010#8, 0b01111111#8] := by decide

theorem test_decode_subRegReg :
    (decode [0b00110001#8, 0b00000001#8, 0b00000010#8]).toOption = some ((.subRegReg 0x01#8 0x02#8), []) ∧
    encode (.subRegReg 0x01#8 0x02#8) = [0b00110001#8, 0b00000001#8, 0b00000010#8] := by decide

theorem test_decode_subRegMem :
    (decode [0b00110010#8, 0b00000001#8, 0b10100101#8]).toOption = some ((.subRegMem 0x01#8 0xA5#8), []) ∧
    encode (.subRegMem 0x01#8 0xA5#8) = [0b00110010#8, 0b00000001#8, 0b10100101#8] := by decide

theorem test_decode_incReg :
    (decode [0b01000000#8, 0b00000010#8]).toOption = some ((.incReg 0x02#8), []) ∧
    encode (.incReg 0x02#8) = [0b01000000#8, 0b00000010#8] := by decide

theorem test_decode_decReg :
    (decode [0b01000001#8, 0b00000010#8]).toOption = some ((.decReg 0x02#8), []) ∧
    encode (.decReg 0x02#8) = [0b01000001#8, 0b00000010#8] := by decide

theorem test_decode_outReg :
    (decode [0b01010000#8, 0b00000010#8]).toOption = some ((.outReg 0x02#8), []) ∧
    encode (.outReg 0x02#8) = [0b01010000#8, 0b00000010#8] := by decide

theorem test_decode_jmp :
    (decode [0b01100000#8, 0b11000011#8]).toOption = some ((.jmp 0xC3#8), []) ∧
    encode (.jmp 0xC3#8) = [0b01100000#8, 0b11000011#8] := by decide

theorem test_decode_cmpRegImm :
    (decode [0b01110000#8, 0b00000010#8, 0b01111111#8]).toOption = some ((.cmpRegImm 0x02#8 0x7F#8), []) ∧
    encode (.cmpRegImm 0x02#8 0x7F#8) = [0b01110000#8, 0b00000010#8, 0b01111111#8] := by decide

theorem test_decode_cmpRegReg :
    (decode [0b01110001#8, 0b00000001#8, 0b00000010#8]).toOption = some ((.cmpRegReg 0x01#8 0x02#8), []) ∧
    encode (.cmpRegReg 0x01#8 0x02#8) = [0b01110001#8, 0b00000001#8, 0b00000010#8] := by decide

theorem test_decode_cmpRegMem :
    (decode [0b01110010#8, 0b00000001#8, 0b10100101#8]).toOption = some ((.cmpRegMem 0x01#8 0xA5#8), []) ∧
    encode (.cmpRegMem 0x01#8 0xA5#8) = [0b01110010#8, 0b00000001#8, 0b10100101#8] := by decide

theorem test_decode_je :
    (decode [0b10000000#8, 0b11000011#8]).toOption = some ((.je 0xC3#8), []) ∧
    encode (.je 0xC3#8) = [0b10000000#8, 0b11000011#8] := by decide

theorem test_decode_jne :
    (decode [0b10000001#8, 0b11000011#8]).toOption = some ((.jne 0xC3#8), []) ∧
    encode (.jne 0xC3#8) = [0b10000001#8, 0b11000011#8] := by decide

theorem test_decode_jg :
    (decode [0b10000010#8, 0b11000011#8]).toOption = some ((.jg 0xC3#8), []) ∧
    encode (.jg 0xC3#8) = [0b10000010#8, 0b11000011#8] := by decide

theorem test_decode_jl :
    (decode [0b10000011#8, 0b11000011#8]).toOption = some ((.jl 0xC3#8), []) ∧
    encode (.jl 0xC3#8) = [0b10000011#8, 0b11000011#8] := by decide

theorem test_decode_hlt :
    (decode [0b11111111#8]).toOption = some (.hlt, []) ∧
    encode .hlt = [0b11111111#8] := by decide

/-- V7: the bytes beside the defined ranges are undefined, whatever follows. -/
theorem test_decode_undefined :
    [0x00#8, 0x0F#8, 0x14#8, 0x23#8, 0x33#8, 0x42#8, 0x51#8, 0x61#8, 0x73#8, 0x84#8, 0xFE#8].all
      (fun b => (decode [b, 0x00#8, 0x00#8]).toOption == none) = true := by decide

theorem test_decode_short_input :
    (decode []).toOption = none ∧ (decode [0x10#8, 0x00#8]).toOption = none ∧ (decode [0x60#8]).toOption = none := by decide

/-- R97, R99: no reserved operand values, so a byte that is no register code decodes too. -/
theorem test_decode_any_operand : (decode [0x11#8, 0x05#8, 0x07#8, 0xFF#8]).toOption = some (.movRegReg 0x05#8 0x07#8, [0xFF#8]) := by
  decide

theorem test_table_word_runs_first_after_reset :
    decodeTableWord 24 0x7F0210 = some (.movRegImm 0x02#8 0x7F#8) ∧ (after (State.reset.withFetchWord 24 0x7F0210)).r2 = 0x7F#8 ∧
    (after (State.reset.withFetchWord 8 0xFF)).run = .halted := by decide

/-! One step of each instruction. -/

/-- V8.1: operand bytes at 0xFF and 0x00. -/
theorem test_movRegImm_wraps_fetch :
    let t := after (at' 0xFE#8 [0x10#8, 0x01#8, 0x60#8])
    t.r1 = 0x60#8 ∧ t.pc = 0x01#8 := by decide

/-- V1.10. -/
theorem test_movRegImm_bad_register :
    let t := after { at' 0x00#8 [0x10#8, 0x03#8, 0x05#8] with r0 := 0x01#8, r1 := 0x02#8, r2 := 0x03#8 }
    t.run = .faulted ∧ t.flt = some { reason := .invalidRegisterCode, addr := 0x00#8, opcode := 0x10#8, code := some 0x03#8 } ∧ t.pc = 0x00#8 ∧ t.ir = 0x10#8 ∧ regs t = [0x01#8, 0x02#8, 0x03#8] := by decide

/-- V1.2. -/
theorem test_movRegReg_copies :
    let t := after { at' 0x00#8 [0x11#8, 0x01#8, 0x02#8] with r2 := 0x9A#8 }
    regs t = [0x00#8, 0x9A#8, 0x9A#8] ∧ t.pc = 0x03#8 := by decide

/-- V1.11. -/
theorem test_movRegReg_checks_first_byte_first :
    let t := after { at' 0x00#8 [0x11#8, 0x05#8, 0x07#8] with r0 := 0x01#8 }
    t.flt = some { reason := .invalidRegisterCode, addr := 0x00#8, opcode := 0x11#8, code := some 0x05#8 } ∧ t.r0 = 0x01#8 := by decide

/-- V1.4. -/
theorem test_movRegMem_loads :
    let t := after (poke 0x30#8 0xC3#8 (at' 0x00#8 [0x12#8, 0x00#8, 0x30#8]))
    t.r0 = 0xC3#8 ∧ t.pc = 0x03#8 := by decide

/-- V1.5. -/
theorem test_movRegMem_reads_its_own_opcode :
    let t := after (at' 0x00#8 [0x12#8, 0x01#8, 0x00#8])
    t.r1 = 0x12#8 := by decide

/-- V8.4: stores into its own operand byte (R80). -/
theorem test_movMemReg_wraps_and_stores :
    let t := after { at' 0xFD#8 [0x13#8, 0xFF#8, 0x00#8] with r0 := 0xAB#8 }
    t.mem.read 0xFF#8 = 0xAB#8 ∧ t.pc = 0x00#8 := by decide

/-- V1.14. -/
theorem test_movMemReg_bad_register :
    let t := after { poke 0x20#8 0xAA#8 (at' 0x00#8 [0x13#8, 0x20#8, 0x03#8]) with r1 := 0x02#8 }
    t.flt = some { reason := .invalidRegisterCode, addr := 0x00#8, opcode := 0x13#8, code := some 0x03#8 } ∧ t.mem.read 0x20#8 = 0xAA#8 := by decide

/-- V2.2. -/
theorem test_addRegImm_wraps_without_flags :
    let t := after { at' 0x00#8 [0x20#8, 0x00#8, 0x01#8] with r0 := 0xFF#8 }
    t.r0 = 0x00#8 ∧ t.zf = false ∧ t.pc = 0x03#8 := by decide

/-- V2.5. -/
theorem test_addRegReg_doubles :
    let t := after { at' 0x00#8 [0x21#8, 0x00#8, 0x00#8] with r0 := 0x81#8 }
    t.r0 = 0x02#8 := by decide

/-- V2.21. -/
theorem test_addRegReg_checks_second_byte :
    let t := after (at' 0x00#8 [0x21#8, 0x00#8, 0x09#8])
    t.flt = some { reason := .invalidRegisterCode, addr := 0x00#8, opcode := 0x21#8, code := some 0x09#8 } := by decide

/-- V2.6. -/
theorem test_addRegMem_wraps :
    let t := after { poke 0x30#8 0xF0#8 (at' 0x00#8 [0x22#8, 0x00#8, 0x30#8]) with r0 := 0x20#8 }
    t.r0 = 0x10#8 := by decide

/-- V2.9. -/
theorem test_subRegImm_wraps :
    let t := after { at' 0x00#8 [0x30#8, 0x00#8, 0x05#8] with r0 := 0x03#8 }
    t.r0 = 0xFE#8 ∧ t.sf = false := by decide

/-- V2.11. -/
theorem test_subRegReg_order :
    let t := after { at' 0x00#8 [0x31#8, 0x00#8, 0x01#8] with r0 := 0x80#8, r1 := 0x01#8 }
    regs t = [0x7F#8, 0x01#8, 0x00#8] := by decide

/-- V2.14. -/
theorem test_subRegMem_wraps :
    let t := after (poke 0x30#8 0x01#8 (at' 0x00#8 [0x32#8, 0x01#8, 0x30#8]))
    t.r1 = 0xFF#8 := by decide

/-- V2.19. -/
theorem test_incReg_keeps_flags :
    let t := after { at' 0x00#8 [0x40#8, 0x00#8] with r0 := 0xFF#8, zf := true, sf := true }
    t.r0 = 0x00#8 ∧ t.zf = true ∧ t.sf = true ∧ t.pc = 0x02#8 := by decide

/-- V2.22. -/
theorem test_incReg_bad_register :
    let t := after (at' 0x00#8 [0x40#8, 0xFF#8])
    t.flt = some { reason := .invalidRegisterCode, addr := 0x00#8, opcode := 0x40#8, code := some 0xFF#8 } := by decide

/-- V2.17. -/
theorem test_decReg_wraps :
    let t := after (at' 0x00#8 [0x41#8, 0x02#8])
    t.r2 = 0xFF#8 ∧ t.pc = 0x02#8 := by decide

/-- V3.2. -/
theorem test_outReg_appends :
    let t := after { at' 0x00#8 [0x50#8, 0x02#8] with r2 := 0xFF#8, out := [0x01#8] }
    t.out = [0x01#8, 0xFF#8] ∧ t.pc = 0x02#8 := by decide

/-- V3.4. -/
theorem test_outReg_bad_register :
    let t := after { at' 0x00#8 [0x50#8, 0x03#8] with out := [0x05#8] }
    t.run = .faulted ∧ t.out = [0x05#8] := by decide

/-- V8.3. -/
theorem test_jmp_wraps_fetch :
    let t := after (at' 0xFF#8 [0x60#8, 0x10#8])
    t.pc = 0x10#8 := by decide

/-- V5.4. -/
theorem test_jmp_target_is_no_register :
    let t := after (at' 0x00#8 [0x60#8, 0x02#8])
    t.pc = 0x02#8 ∧ t.run = .running := by decide

/-- V4, more vectors 1. -/
theorem test_cmpRegImm_rewrites_both_flags :
    let t := after { at' 0x00#8 [0x70#8, 0x00#8, 0x00#8] with sf := true }
    t.zf = true ∧ t.sf = false ∧ t.pc = 0x03#8 := by decide

/-- V4, more vectors 5. -/
theorem test_cmpRegImm_bad_register :
    let t := after { at' 0x00#8 [0x70#8, 0x03#8, 0x00#8] with zf := true }
    t.run = .faulted ∧ t.zf = true := by decide

/-- V4, row 7F / 80. -/
theorem test_cmpRegReg_sign_of_wrapped_difference :
    let t := after { at' 0x00#8 [0x71#8, 0x00#8, 0x01#8] with r0 := 0x7F#8, r1 := 0x80#8 }
    t.zf = false ∧ t.sf = true ∧ regs t = [0x7F#8, 0x80#8, 0x00#8] := by decide

/-- V4, row 00 / FF. -/
theorem test_cmpRegReg_wraps_to_positive :
    let t := after { at' 0x00#8 [0x71#8, 0x00#8, 0x01#8] with r1 := 0xFF#8 }
    t.zf = false ∧ t.sf = false := by decide

/-- V4, more vectors 3. -/
theorem test_cmpRegMem_compares :
    let t := after { poke 0x30#8 0x20#8 (at' 0x00#8 [0x72#8, 0x01#8, 0x30#8]) with r1 := 0x10#8 }
    t.zf = false ∧ t.sf = true ∧ t.r1 = 0x10#8 := by decide

/-- V5, the truth table of JE: ZF SF = 0 0, 1 0, 0 1, 1 1. -/
theorem test_je_truth_table :
    [(false, false), (true, false), (false, true), (true, true)].map (fun f =>
      (after { at' 0x10#8 [0x80#8, 0x20#8] with zf := f.1, sf := f.2 }).pc) = [0x12#8, 0x20#8, 0x12#8, 0x20#8] := by decide

/-- V5, the truth table of JNE: ZF SF = 0 0, 1 0, 0 1, 1 1. -/
theorem test_jne_truth_table :
    [(false, false), (true, false), (false, true), (true, true)].map (fun f =>
      (after { at' 0x10#8 [0x81#8, 0x20#8] with zf := f.1, sf := f.2 }).pc) = [0x20#8, 0x12#8, 0x20#8, 0x12#8] := by decide

/-- V5, the truth table of JG: ZF SF = 0 0, 1 0, 0 1, 1 1. -/
theorem test_jg_truth_table :
    [(false, false), (true, false), (false, true), (true, true)].map (fun f =>
      (after { at' 0x10#8 [0x82#8, 0x20#8] with zf := f.1, sf := f.2 }).pc) = [0x20#8, 0x12#8, 0x12#8, 0x12#8] := by decide

/-- V5, the truth table of JL: ZF SF = 0 0, 1 0, 0 1, 1 1. -/
theorem test_jl_truth_table :
    [(false, false), (true, false), (false, true), (true, true)].map (fun f =>
      (after { at' 0x10#8 [0x83#8, 0x20#8] with zf := f.1, sf := f.2 }).pc) = [0x12#8, 0x12#8, 0x20#8, 0x20#8] := by decide

/-- V5.9. -/
theorem test_je_wraps_when_not_taken :
    let t := after (at' 0xFF#8 [0x80#8, 0x33#8])
    t.pc = 0x01#8 := by decide

/-- V5.11. -/
theorem test_jne_wraps_when_not_taken :
    let t := after { at' 0xFE#8 [0x81#8, 0x40#8] with zf := true }
    t.pc = 0x00#8 := by decide

/-- V6.2, V6.5. -/
theorem test_hlt_keeps_pc :
    let t := after { at' 0xFF#8 [0xFF#8] with r0 := 0x12#8, zf := true, out := [0x07#8] }
    t.run = .halted ∧ t.pc = 0xFF#8 ∧ t.ir = 0xFF#8 ∧ t.r0 = 0x12#8 ∧ t.zf = true ∧ t.out = [0x07#8] := by decide

/-- E6: halted, rejected, reset, halted again. -/
theorem test_halt_reject_reset :
    let s := loadImage [0xFF#8] State.reset
    stepOutcome s = some .halted ∧ hostStep (after s) = some (after s, .rejected) ∧ hostReset (after s) = s := by decide

/-! Faults, reset, the host. -/

/-- E7's instance and V7: the second step faults, the third is rejected. -/
theorem test_unknown_opcode :
    let s := after (loadImage [0x10#8, 0x00#8, 0x05#8, 0xA0#8] State.reset)
    let t := after s
    stepOutcome s = some (.faulted .unknownOpcode) ∧ t.pc = 0x03#8 ∧ t.ir = 0xA0#8 ∧ t.r0 = 0x05#8 ∧
    t.flt = some { reason := .unknownOpcode, addr := 0x03#8, opcode := 0xA0#8, code := none } ∧
    stepOutcome t = some .rejected ∧ t.status.faultNumber = 1 := by decide

/-- V9, first row. -/
theorem test_reset_clears :
    hostReset { at' 0x0C#8 [0xFF#8] with ir := 0xFF#8, r0 := 0x01#8, r1 := 0x02#8, r2 := 0x03#8, zf := true, out := [0x03#8], run := .halted }
      = { State.reset with mem := [(0x0C, 0xFF#8)] } := by decide

/-- V8.5: the first step sets the run state. -/
theorem test_first_step_runs : State.reset.run = .ready ∧ (after (loadImage [0x60#8, 0x00#8] State.reset)).run = .running := by decide

/-- E1: the run halts after three steps with output "05". -/
theorem test_run_to_halt :
    ((runToHalt 3 (loadImage [0x10#8, 0x00#8, 0x05#8, 0x50#8, 0x00#8, 0xFF#8] State.reset)).map fun r =>
      (r.1.pc, r.1.outLines, r.2)) = some (0x05#8, [['0', '5']], .halted) := by decide

/-- R51's own rendering: 0x05 as `05` and a newline, 0xAB as `AB` and a newline. -/
theorem test_output_text :
    ({ State.reset with out := [0x05#8, 0xAB#8] } : State).outText =
      ['0', '5'] ++ Config.newlineText ++ (['A', 'B'] ++ Config.newlineText) := by
  have h : ({ State.reset with out := [0x05#8, 0xAB#8] } : State).outLines = [['0', '5'], ['A', 'B']] := by decide
  simp [State.outText, h]

/-- E2: its program cancelled after 9 steps. -/
theorem test_cancelled_run :
    let r := runCalls 9 (loadImage [0x40#8, 0x00#8, 0x60#8, 0x00#8] State.reset)
    r.1.pc = 0x02#8 ∧ r.1.r0 = 0x05#8 ∧ r.1.run = .running ∧ r.2 = none := by decide

theorem test_memory_form :
    Memory.wf [] = true ∧ Memory.write [(0x20, 0x7F#8)] 0x20#8 0x00#8 = [] ∧ Memory.wf [(1, 0x01#8), (0, 0x01#8)] = false ∧
    Memory.wf [(0, 0x00#8)] = false ∧ Memory.wf [(256, 0x01#8)] = false := by decide

/-! The assembler and the patch text (V10, E2, E4, E8, P2). -/

/-- The image of a text with the default parameter. -/
def image (text : String) : Option (List Byte) := (assemble Config.jmpNumericDefault text.toList).toOption

/-- The error of a text. -/
def asmError (js : Config.JmpNumericSyntax) (text : String) : Option AsmError :=
  match assemble js text.toList with
  | .ok _ => none
  | .error e => some e

theorem test_assemble_forms :
    image "MOV R1, [20]" = some [0x12#8, 0x01#8, 0x20#8] ∧ image "MOV [20], R1" = some [0x13#8, 0x20#8, 0x01#8] ∧
    image "ADD R0, 1" = some [0x20#8, 0x00#8, 0x01#8] ∧ image "mov r0, 5" = some [0x10#8, 0x00#8, 0x05#8] ∧
    image "CMP R2, [FF]" = some [0x72#8, 0x02#8, 0xFF#8] ∧ image "JMP 05" = some [0x60#8, 0x05#8] ∧
    image "JMP [05]" = some [0x60#8, 0x05#8] ∧ image "; comment\n\nHLT" = some [0xFF#8] := by decide

/-- E2 and E4. -/
theorem test_assemble_labels :
    image "LOOP: INC R0 \n JMP LOOP" = some [0x40#8, 0x00#8, 0x60#8, 0x00#8] ∧
    image "MOV R0,05\nMOV R1,05\nCMP R0,R1\nJE target\nHLT\nTARGET: HLT" =
      some [0x10#8, 0x00#8, 0x05#8, 0x10#8, 0x01#8, 0x05#8, 0x71#8, 0x00#8, 0x01#8, 0x80#8, 0x0C#8, 0xFF#8, 0xFF#8] := by decide

theorem test_assemble_errors :
    asmError Config.jmpNumericDefault "FOO: \n FOO: HLT" = some { kind := .duplicateLabel, line := 2 } ∧
    asmError Config.jmpNumericDefault "MOV R0, [5]" = some { kind := .invalidOperandToken, line := 1 } ∧
    asmError Config.jmpNumericDefault "JNE X" = some { kind := .undefinedLabel, line := 1 } ∧
    asmError Config.jmpNumericDefault "NOP" = some { kind := .unknownMnemonic, line := 1 } ∧
    asmError Config.jmpNumericDefault "INC 05" = some { kind := .invalidOperandShape, line := 1 } ∧
    asmError { imm := false, addr := true } "JMP 05" = some { kind := .invalidOperandShape, line := 1 } ∧
    asmError { imm := true, addr := false } "JMP [05]" = some { kind := .invalidOperandShape, line := 1 } := by decide

/-- P2's patches. -/
theorem test_patch :
    (patchMemory "[20]: 7F\n[21]: 85".toList State.reset).toOption = some { State.reset with mem := [(0x20, 0x7F#8), (0x21, 0x85#8)] } ∧
    (patchMemory "[20]: 7F\n[2]: 85".toList State.reset).toOption = none := by decide

/-! Witnesses: for every statement with hypotheses, a state and operands that meet them together. -/

/-- The hypotheses of `Executes op` and of `FaultsOnCode op`: `op` stands at the PC right after reset and, the PC at 0xFE so that the
operands wrap, in a run; and the least and the greatest byte that is no register code. -/
abbrev OpcodeWitness (op : Byte) : Prop :=
  (Accepts (loadImage [op] State.reset) ∧ (loadImage [op] State.reset).mem.read (loadImage [op] State.reset).pc = op) ∧
    (Accepts (at' 0xFE#8 [op]) ∧ (at' 0xFE#8 [op]).mem.read (at' 0xFE#8 [op]).pc = op) ∧
    3 ≤ (0x03#8).toNat ∧ 3 ≤ (0xFF#8).toNat

theorem test_witness_MovRegImmCopiesImmediate : OpcodeWitness 0x10#8 := by decide

theorem test_witness_MovRegRegCopiesRegister : OpcodeWitness 0x11#8 := by decide

theorem test_witness_MovRegMemLoadsByte : OpcodeWitness 0x12#8 := by decide

/-- Its last clause too: a step that changes memory. -/
theorem test_witness_MovMemRegStoresByte :
    OpcodeWitness 0x13#8 ∧ ∃ s t, step s = .next t ∧ ∃ a, t.mem.read a ≠ s.mem.read a :=
  ⟨by decide, { at' 0x00#8 [0x13#8, 0x30#8] with r0 := 0x5A#8 }, _, rfl, 0x30#8, by decide⟩

theorem test_witness_AddRegImmAddsModulo256 : OpcodeWitness 0x20#8 := by decide

theorem test_witness_AddRegRegAddsModulo256 : OpcodeWitness 0x21#8 := by decide

theorem test_witness_AddRegMemAddsModulo256 : OpcodeWitness 0x22#8 := by decide

theorem test_witness_SubRegImmSubtractsModulo256 : OpcodeWitness 0x30#8 := by decide

theorem test_witness_SubRegRegSubtractsModulo256 : OpcodeWitness 0x31#8 := by decide

theorem test_witness_SubRegMemSubtractsModulo256 : OpcodeWitness 0x32#8 := by decide

theorem test_witness_IncRegAddsOneModulo256 : OpcodeWitness 0x40#8 := by decide

theorem test_witness_DecRegSubtractsOneModulo256 : OpcodeWitness 0x41#8 := by decide

theorem test_witness_OutRegAppendsRegister : OpcodeWitness 0x50#8 := by decide

theorem test_witness_JmpGoesToTarget : OpcodeWitness 0x60#8 := by decide

theorem test_witness_CmpRegImmWritesFlags : OpcodeWitness 0x70#8 := by decide

theorem test_witness_CmpRegRegWritesFlags : OpcodeWitness 0x71#8 := by decide

theorem test_witness_CmpRegMemWritesFlags : OpcodeWitness 0x72#8 := by decide

theorem test_witness_JeJumpsWhenZeroFlagSet : OpcodeWitness 0x80#8 := by decide

theorem test_witness_JneJumpsWhenZeroFlagClear : OpcodeWitness 0x81#8 := by decide

theorem test_witness_JgJumpsWhenBothFlagsClear : OpcodeWitness 0x82#8 := by decide

theorem test_witness_JlJumpsWhenSignFlagSet : OpcodeWitness 0x83#8 := by decide

theorem test_witness_HltHaltsAndKeepsPc : OpcodeWitness 0xFF#8 := by decide
theorem test_witness_CanonicalMemoriesWithEqualCellsAreEqual :
    ∃ m n : Memory, m.wf = true ∧ n.wf = true ∧ (∀ a, m.read a = n.read a) ∧ m ≠ [] :=
  ⟨[(0x20, 0x7F#8)], Memory.write [] 0x20#8 0x7F#8, by decide, by decide, fun _ => rfl, by decide⟩

/-- Lengths 1, 2 and 3. -/
theorem test_witness_OpcodeFixesInstructionLength :
    decode [0xFF#8] = .ok (.hlt, []) ∧ decode [0x60#8, 0x05#8, 0x10#8] = .ok (.jmp 0x05#8, [0x10#8]) ∧
    decode [0x10#8, 0x00#8, 0x05#8] = .ok (.movRegImm 0x00#8 0x05#8, []) := ⟨rfl, rfl, rfl⟩

/-- At address 0xFF, so that the operand is read from 0x00. -/
theorem test_witness_StepRunsDecodedInstruction :
    let s := at' 0xFF#8 [0x60#8, 0x10#8]
    Accepts s ∧ decode [s.mem.read s.pc, s.mem.read (s.pc + 1#8), s.mem.read (s.pc + 2#8)] = .ok (.jmp 0x10#8, [0x00#8]) :=
  ⟨by decide, rfl⟩

/-- Both terminal states. -/
theorem test_witness_TerminalStateRejectsStep :
    (after (at' 0x00#8 [0xFF#8])).run = .halted ∧ (after (at' 0x00#8 [0xA0#8])).run = .faulted := by decide

theorem test_witness_InstructionRegisterOnlyRecords : Accepts State.reset ∧ Accepts (at' 0x00#8 [0xFF#8]) := by decide

/-- A halting, a faulting, a jumping and a running step. -/
theorem test_witness_ProgramCounterAfterStep :
    (∃ s t, Accepts s ∧ step s = .next t ∧ t.run = .halted) ∧ (∃ s t, Accepts s ∧ step s = .next t ∧ t.run = .faulted) ∧
    (∃ s t, Accepts s ∧ step s = .next t ∧ t.run = .running ∧ s.mem.read s.pc = 0x60#8) ∧
    (∃ s t, Accepts s ∧ step s = .next t ∧ t.run = .running ∧ s.mem.read s.pc = 0x50#8) ∧
    ∃ s t, Accepts s ∧ step s = .next t ∧ t.run = .running ∧ s.mem.read s.pc = 0x72#8 :=
  ⟨⟨at' 0xFF#8 [0xFF#8], _, by decide, rfl, rfl⟩, ⟨at' 0xFF#8 [0xFE#8], _, by decide, rfl, rfl⟩,
    ⟨at' 0xFF#8 [0x60#8], _, by decide, rfl, rfl, by decide⟩, ⟨at' 0xFF#8 [0x50#8], _, by decide, rfl, rfl, by decide⟩,
    ⟨at' 0xFE#8 [0x72#8], _, by decide, rfl, rfl, by decide⟩⟩

theorem test_witness_AcceptedStepEndsInReportedRunState :
    Accepts (at' 0x00#8 [0xFF#8]) ∧ Accepts (at' 0x00#8 [0xA0#8]) ∧ Accepts (at' 0x00#8 [0x60#8]) := by decide

/-- The three forms of CMP, on the bytes 0x80 and 0x7F. -/
theorem compares_forms :
    let s : State := poke 0x30#8 0x7F#8 { State.reset with r0 := 0x80#8, r1 := 0x7F#8 }
    Compares (.cmpRegImm 0x00#8 0x7F#8) s 0x80#8 0x7F#8 ∧ Compares (.cmpRegReg 0x00#8 0x01#8) s 0x80#8 0x7F#8 ∧
    Compares (.cmpRegMem 0x00#8 0x30#8) s 0x80#8 0x7F#8 :=
  ⟨.inl ⟨.r0, rfl, rfl⟩, .inr (.inl ⟨.r0, .r1, rfl, rfl, rfl⟩), .inr (.inr ⟨.r0, 0x30#8, rfl, rfl, rfl⟩)⟩

theorem test_witness_CompareFlagsMeanEqualityAndWrappedSign : ∃ i s, Compares i s 0x80#8 0x7F#8 := ⟨_, _, compares_forms.1⟩

/-- Each of the three outcomes: equal, a difference that wraps to at most 0x7F, and one that wraps to 0x80 or more. -/
theorem test_witness_ConditionalJumpsAfterCompare :
    (∃ i s, Compares i s 0x7F#8 0x7F#8) ∧ (∃ i s, Compares i s 0x80#8 0x7F#8) ∧ wrappedDifference 0x80#8 0x7F#8 ≤ 0x7F ∧
    (∃ i s, Compares i s 0x7F#8 0x80#8) ∧ ¬wrappedDifference 0x7F#8 0x80#8 ≤ 0x7F :=
  ⟨⟨_, { State.reset with r0 := 0x7F#8 }, .inl ⟨.r0, rfl, rfl⟩⟩, ⟨_, _, compares_forms.1⟩, by decide,
    ⟨_, { State.reset with r0 := 0x7F#8 }, .inl ⟨.r0, rfl, rfl⟩⟩, by decide⟩

/-- Every end of every range. -/
theorem test_witness_UndefinedOpcodeFaults :
    [0x00#8, 0x0F#8, 0x14#8, 0x1F#8, 0x23#8, 0x2F#8, 0x33#8, 0x3F#8, 0x42#8, 0x4F#8, 0x51#8, 0x5F#8, 0x61#8, 0x6F#8, 0x73#8, 0x7F#8,
      0x84#8, 0xFE#8].all (fun b => decide (Accepts (at' 0x00#8 [b]) ∧ UndefinedOpcode ((at' 0x00#8 [b]).mem.read 0x00#8))) = true := by
  decide

/-- An undefined opcode; a bad `B1`, a bad `B1` before a bad `B2`, a bad `B2` alone; the `B2` of a store; no fault. -/
theorem test_witness_FirstFailingCheckDecidesFault :
    Accepts (at' 0x00#8 [0x0F#8]) ∧ UndefinedOpcode ((at' 0x00#8 [0x0F#8]).mem.read 0x00#8) ∧
    OffendingByte (at' 0x00#8 [0x40#8, 0x03#8]) = some 0x03#8 ∧ OffendingByte (at' 0x00#8 [0x11#8, 0x05#8, 0x07#8]) = some 0x05#8 ∧
    OffendingByte (at' 0x00#8 [0x71#8, 0x02#8, 0x03#8]) = some 0x03#8 ∧ OffendingByte (at' 0x00#8 [0x13#8, 0x20#8, 0xFF#8]) = some 0xFF#8 ∧
    OffendingByte (at' 0x00#8 [0x60#8, 0xFF#8]) = none := by decide

theorem test_witness_StatusOutputNumbersFaults :
    State.reset.flt = none ∧
    (after (at' 0x00#8 [0x40#8, 0x03#8])).flt =
      some { reason := .invalidRegisterCode, addr := 0x00#8, opcode := 0x40#8, code := some 0x03#8 } := by decide

/-- A step that is no compare, and a compare that faults. -/
theorem test_witness_OnlyCompareWritesFlags :
    (∃ s t, step s = .next t ∧ s.mem.read s.pc ∉ [0x70#8, 0x71#8, 0x72#8]) ∧
    ∃ s t, step s = .next t ∧ s.mem.read s.pc = 0x71#8 ∧ t.run = .faulted :=
  ⟨⟨at' 0x00#8 [0x20#8], _, rfl, by decide⟩, ⟨at' 0x00#8 [0x71#8, 0x00#8, 0x03#8], _, rfl, by decide, rfl⟩⟩

theorem test_witness_OnlyStoreWritesMemory : ∃ s t, step s = .next t ∧ ∃ a, t.mem.read a ≠ s.mem.read a :=
  ⟨{ at' 0x00#8 [0x13#8, 0x30#8] with r0 := 0x5A#8 }, _, rfl, 0x30#8, by decide⟩

/-- A step that sends a byte and one that sends none. -/
theorem test_witness_OutputStreamIsAppendOnlyAndNeverRead :
    Accepts (at' 0x00#8 [0x50#8]) ∧ stepOutput (at' 0x00#8 [0x50#8]) = some 0x00#8 ∧
    Accepts (at' 0x00#8 [0x50#8, 0x03#8]) ∧ stepOutput (at' 0x00#8 [0x50#8, 0x03#8]) = none := by decide

/-- A store into its own opcode byte (V1.8). -/
theorem test_witness_StoreIsSeenByEveryLaterFetch :
    let s := { at' 0x00#8 [0x13#8] with r0 := 0x40#8 }
    Accepts s ∧ s.mem.read s.pc = 0x13#8 ∧ s.mem.read (s.pc + 2#8) = regCode .r0 := by decide

/-- Each clause, the data clauses with a register code and without one; how many accesses R67 gives each. -/
theorem test_witness_StepMakesTheListedAccesses :
    [([0x0F#8], 1), ([0xFF#8], 1), ([0x40#8], 2), ([0x83#8], 2), ([0x10#8], 3), ([0x71#8], 3), ([0x12#8, 0x02#8], 4),
      ([0x72#8, 0x03#8], 3), ([0x13#8, 0x20#8, 0x02#8], 4), ([0x13#8, 0x20#8, 0x03#8], 3)].all (fun c =>
        decide (Accepts (at' 0xFE#8 c.1) ∧ (stepAccesses (at' 0xFE#8 c.1)).length = c.2)) = true := by decide

/-- Another memory that agrees on what the step reads. -/
theorem test_witness_StepDependsOnlyOnListedAccesses :
    let s := at' 0x00#8 [0x12#8, 0x00#8, 0x30#8]
    let m := s.mem.write 0x31#8 0x01#8
    m ≠ s.mem ∧ ∀ x ∈ stepAccesses s, ∀ a, x.readAddr = some a → m.read a = s.mem.read a := by
  refine ⟨by decide, ?_⟩
  show ∀ x ∈ [Access.fetch 0x00#8, .operand 0x01#8, .operand 0x02#8, .read 0x30#8], _
  simp only [List.forall_mem_cons, Access.readAddr, Option.some.injEq, forall_eq']
  decide

theorem test_witness_PowerOnMeetsInvariant : Memory.wf [(0x00, 0xFF#8), (0xFF, 0x01#8)] = true := by decide

theorem test_witness_StepKeepsInvariant : ∃ s t, s.Inv ∧ step s = .next t :=
  ⟨State.reset, after State.reset,
    { memory := rfl, flags := by decide, record := by decide, recordAgrees := fun f h => (by cases h), halted := by decide,
      ready := fun _ => rfl }, rfl⟩

theorem test_witness_ReachableStatesMeetInvariant : ∃ s, Reachable s ∧ s.run = .halted :=
  ⟨_, .step (State.powerOn [(0, 0xFF#8)]) _ (.powerOn _ (by decide)) rfl, rfl⟩

theorem test_witness_RunToHaltStopsOnlyAtAnEnd :
    ∃ t o, runToHalt 2 (loadImage [0x40#8, 0x00#8, 0xFF#8] State.reset) = some (t, o) := ⟨_, _, rfl⟩

/-- The shortest and the longest image, and the cells at both ends of an image. -/
theorem test_witness_LoadedImageStandsFromAddressZero :
    ([] : List Byte).length ≤ 256 ∧ (List.replicate 256 0xFF#8).length ≤ 256 ∧ 0 < [0x40#8, 0x00#8].length ∧
    1 < [0x40#8, 0x00#8].length ∧ [0x40#8, 0x00#8].length ≤ (0x02#8).toNat ∧ [0x40#8, 0x00#8].length ≤ (0xFF#8).toNat := by
  rw [List.length_replicate]
  decide

/-- One byte, and none. -/
theorem test_witness_OutputIsObservedAsHexLines :
    (let s : State := { State.reset with out := [0x0A#8] }
     0 < s.out.length ∧ s.out = [] ++ [0x0A#8]) ∧ State.reset.out = [] := by decide

/-- E2's program, cancelled after its first step; and V5.2, a JMP to its own address, at both ends of memory. -/
theorem test_witness_CancelledRunLeavesLastCompletedStep :
    (∃ t, runCalls 1 (loadImage [0x40#8, 0x00#8, 0x60#8, 0x00#8] State.reset) = (t, none)) ∧
    [0x00#8, 0xFF#8].all (fun a =>
      let s := at' a [0x60#8, a]
      decide (Accepts s ∧ s.mem.read s.pc = 0x60#8 ∧ s.mem.read (s.pc + 1#8) = s.pc)) = true := ⟨⟨_, rfl⟩, by decide⟩

theorem test_witness_AssembledLineDecodesToInstruction :
    assembleWords Config.jmpNumericDefault [] ["MOV".toList, "R0".toList, "5".toList] = .ok [0x10#8, 0x00#8, 0x05#8] := by rfl

/-- A text with a label and a line of it. -/
theorem test_witness_LabelsAreTheAddressesOfTheirLines :
    let ls := sourceLines "HLT\nX: JMP X".toList
    pass1 0x00#8 [] ls = .ok [("X".toList, 0x01#8)] ∧
    pass2 Config.jmpNumericDefault [("X".toList, 0x01#8)] ls = .ok [0xFF#8, 0x60#8, 0x01#8] ∧
    ls[1]? = some { number := 2, label := some "X".toList, words := ["JMP".toList, "X".toList] } := ⟨rfl, rfl, rfl⟩

end Sys2Proof.Tests
end

section
/-! SUPPORT. The opcode map, by what an opcode does to the PC and the run state (R37, R92, R96). -/

namespace Sys2Proof

/-- HLT alone has the opcode byte 0xFF (R96). -/
theorem Op.byte_ne_hlt {o : Op} (h : o ≠ .hlt) : o.byte ≠ 0xFF#8 := fun hb => h (Op.byte_injective hb)

/-- A byte that selects no opcode is no opcode's byte (R97). -/
theorem ne_byte_of_decodeOpcode_none {b : Byte} (h : decodeOpcode b = none) (o : Op) : b ≠ o.byte := by
  rintro rfl
  simp at h

/-- The jump instructions (R108). -/
def jumpOps : List Op := [.jmp, .je, .jne, .jg, .jl]

theorem jumpOps_ne_hlt : ∀ o ∈ jumpOps, o ≠ .hlt := by decide

/-- The bytes of the jump instructions, which have two bytes each (R92, R96). -/
theorem jumpOps_byte_length : ∀ o ∈ jumpOps, o.byte ∈ [0x60#8, 0x80#8, 0x81#8, 0x82#8, 0x83#8] ∧ o.length = 2 := by decide

/-- The opcodes besides HLT that are no jump: INC, DEC and OUT have two bytes, every other one three (R92, R96). -/
theorem Op.byte_length_of_not_jump {o : Op} (h : o ≠ .hlt) (hj : o ∉ jumpOps) :
    (o.byte ∈ [0x40#8, 0x41#8, 0x50#8] ∧ o.length = 2) ∨
      (o.byte ∈ [0x10#8, 0x11#8, 0x12#8, 0x13#8, 0x20#8, 0x21#8, 0x22#8, 0x30#8, 0x31#8, 0x32#8, 0x70#8, 0x71#8, 0x72#8] ∧
        o.length = 3) := by
  revert h hj
  cases o <;> decide

end Sys2Proof
end

section
/-! SUPPORT. What a step answers, and what an accepted step does to IR, the run state, the PC and the flags. -/

namespace Sys2Proof.Machine

/-! The branch, field by field. -/

section
variable (s : State) (c : Bool) (t : Byte)

@[simp] theorem State.branch_pc : (s.branch c t).pc = if c then t else s.pc + 2#8 := by rw [State.branch_eq]
@[simp] theorem State.branch_ir : (s.branch c t).ir = s.ir := by rw [State.branch_eq]
@[simp] theorem State.branch_zf : (s.branch c t).zf = s.zf := by rw [State.branch_eq]
@[simp] theorem State.branch_sf : (s.branch c t).sf = s.sf := by rw [State.branch_eq]
@[simp] theorem State.branch_mem : (s.branch c t).mem = s.mem := by rw [State.branch_eq]
@[simp] theorem State.branch_run : (s.branch c t).run = s.run := by rw [State.branch_eq]
@[simp] theorem State.branch_flt : (s.branch c t).flt = s.flt := by rw [State.branch_eq]

end

/-- The fault of an undefined opcode is raised in the fetched state (R106). -/
@[simp] theorem State.unknownOpcode_eq (s : State) :
    s.unknownOpcode = s.fetched.raiseFault .unknownOpcode s.opcodeByte none := rfl

/-! The answer of a step. -/

/-- Every instruction answers a next state (R59, R243). -/
theorem exec_next (i : Instr) (s : State) : ∃ t, exec i s = .next t := by
  cases i <;> exact ⟨_, rfl⟩

/-- Every step answers a next state (R53, R243). -/
theorem step_next (s : State) : ∃ t, step s = .next t := by
  rcases step_cases s with ⟨-, h⟩ | ⟨-, -, h⟩ | ⟨o, -, -, h⟩
  · exact ⟨_, h⟩
  · exact ⟨_, h⟩
  · rw [h]
    exact exec_next _ _

/-- A step that is not accepted answers the state itself (R53, R101). -/
theorem step_of_not_accepts {s : State} (h : s.accepts = false) : step s = .next s := by simp [step, h]

/-- A step has one answer, so what holds of some answer holds of each. -/
theorem holds_of_step_next {P : State → Prop} {s t : State} (h : ∃ u, step s = .next u ∧ P u) (ht : step s = .next t) :
    P t := by
  obtain ⟨u, hu, hP⟩ := h
  cases hu.symm.trans ht
  exact hP

/-- The host's step reports a rejection where no step is accepted, else what the state after it says (R276). -/
theorem hostStep_of_next {s t : State} (h : step s = .next t) :
    hostStep s = some (t, if s.accepts then outcomeAfter t else .rejected) := by simp [hostStep, h]

theorem outcomeAfter_of_running {t : State} (h : t.run = .running) : outcomeAfter t = .continued := by simp [outcomeAfter, h]

theorem outcomeAfter_of_halted {t : State} (h : t.run = .halted) : outcomeAfter t = .halted := by simp [outcomeAfter, h]

theorem outcomeAfter_of_faulted {t : State} {f : FaultRecord} (h : t.run = .faulted) (hf : t.flt = some f) :
    outcomeAfter t = .faulted f.reason := by simp [outcomeAfter, h, hf]

/-! IR. -/

/-- An accepted step leaves the fetched byte in IR, whatever it does (R40, R102). -/
theorem step_ir (s : State) (ha : s.accepts = true) : ∃ t, step s = .next t ∧ t.ir = s.opcodeByte := by
  refine step_induct _ s ha ?_ ?_ ?_ ?_ ?_ ?_ ?_ ?_ <;> intros <;> simp

/-- An accepted step does not depend on IR: the fetch overwrites it (R40). -/
theorem step_set_ir (s : State) (ha : s.accepts = true) (x : Byte) : step { s with ir := x } = step s := by
  have hx : ({ s with ir := x } : State).accepts = true := ha
  unfold step
  rw [if_pos hx, if_pos ha]
  rfl

/-! The run state and the PC. -/

/-- How the accepted step from `s` ends in `t` (R37, R53): running with the PC moved, halted by HLT or faulted with a record, the PC
unmoved. -/
def StepEnds (s t : State) : Prop :=
  (t.run = .running ∧ ∃ o, s.opcodeByte = o.byte ∧ o ≠ .hlt ∧
      (t.pc = s.pc + BitVec.ofNat 8 o.length ∨ (o ∈ jumpOps ∧ t.pc = s.operand1))) ∨
    (t.run = .halted ∧ t.pc = s.pc ∧ s.opcodeByte = 0xFF#8) ∨
    (t.run = .faulted ∧ t.pc = s.pc ∧ (∃ f, t.flt = some f) ∧ s.opcodeByte ≠ 0xFF#8)

/-- A register check that fails is not HLT's, which has none (R91, R230). -/
theorem FailsCheckOn.ne_hlt {o : Op} {c : Byte} {s : State} (h : FailsCheckOn o c s) : o ≠ .hlt := by
  rintro rfl
  simp [FailsCheckOn, Op.format] at h

theorem registerWriters_ne_hlt : ∀ o ∈ registerWriters, o ≠ .hlt := by decide

/-- Every accepted step ends in one of these ways. -/
theorem step_ends (s : State) (ha : s.accepts = true) : ∃ t, step s = .next t ∧ StepEnds s t := by
  refine step_induct _ s ha ?unknown ?fault ?register ?store ?output ?flags ?branch ?halt
  case unknown => exact fun hd => .inr (.inr ⟨rfl, rfl, ⟨_, rfl⟩, ne_byte_of_decodeOpcode_none hd .hlt⟩)
  case fault => exact fun o c ho hc => .inr (.inr ⟨rfl, rfl, ⟨_, rfl⟩, ho ▸ Op.byte_ne_hlt hc.ne_hlt⟩)
  case register =>
    exact fun o hm ho _ d v => .inl ⟨by simp, o, ho, registerWriters_ne_hlt o hm, .inl (by simp)⟩
  case store => exact fun r ho _ => .inl ⟨rfl, .movMemReg, ho, by decide, .inl rfl⟩
  case output => exact fun r ho _ => .inl ⟨rfl, .outReg, ho, by decide, .inl rfl⟩
  case flags =>
    have cmp_length : ∀ o ∈ [Op.cmpRegImm, .cmpRegReg, .cmpRegMem], o ≠ .hlt ∧ o.length = 3 := by decide
    intro o hm ho _ a b
    obtain ⟨hne, hl⟩ := cmp_length o hm
    exact .inl ⟨rfl, o, ho, hne, .inl (by simp [hl])⟩
  case branch =>
    intro o hm ho c
    refine .inl ⟨by simp, o, ho, jumpOps_ne_hlt o hm, ?_⟩
    cases c with
    | false => exact .inl (by simp [(jumpOps_byte_length o hm).2])
    | true => exact .inr ⟨hm, by simp⟩
  case halt => exact fun ho => .inr (.inl ⟨rfl, rfl, ho⟩)

/-- An increment of the PC is one modulo 256 (R107). -/
theorem pc_add_toNat (p : Byte) (n : Nat) : (p + BitVec.ofNat 8 n).toNat = (p.toNat + n) % 256 := by
  simp [BitVec.toNat_add]

/-! The flags. -/

/-- Only a CMP that goes on writes the flags (R44). -/
theorem step_flags (s : State) (ha : s.accepts = true) : ∃ t, step s = .next t ∧
    ((t.zf = s.zf ∧ t.sf = s.sf) ∨ (s.opcodeByte ∈ [0x70#8, 0x71#8, 0x72#8] ∧ t.run = .running)) := by
  refine step_induct _ s ha ?unknown ?fault ?register ?store ?output ?flags ?branch ?halt
  case flags =>
    have cmp_bytes : ∀ o ∈ [Op.cmpRegImm, .cmpRegReg, .cmpRegMem], o.byte ∈ [0x70#8, 0x71#8, 0x72#8] := by decide
    exact fun o hm ho _ a b => .inr ⟨ho ▸ cmp_bytes o hm, rfl⟩
  all_goals
    intros
    exact .inl (by simp)

end Sys2Proof.Machine
end

section
/-! SUPPORT. The invariant of the core: which states meet it, and that the host's operations and every step keep it. -/

namespace Sys2Proof.Machine

theorem State.powerOn_inv (m : Memory) (h : m.wf = true) : (State.powerOn m).Inv where
  memory := h
  flags := by simp
  record := by simp
  recordAgrees := by simp
  halted := by simp
  ready := by simp

/-- A running state meets the invariant when its memory is canonical, its flags are not both 1 and it holds no record. -/
theorem State.Inv.of_running {t : State} (hm : t.mem.wf = true) (hf : ¬(t.zf = true ∧ t.sf = true)) (hr : t.run = .running)
    (hn : t.flt = none) : t.Inv where
  memory := hm
  flags := hf
  record := by simp [hr, hn]
  recordAgrees := by simp [hn]
  halted := by simp [hr]
  ready := by simp [hr]

/-- A fault leads to the invariant when its record fits the byte in IR (R54, R241, R242). -/
theorem State.raiseFault_inv {s : State} (hm : s.mem.wf = true) (hf : ¬(s.zf = true ∧ s.sf = true)) (k : Fault) (c : Option Byte)
    (hk : (k = .unknownOpcode ∧ c = none ∧ decodeOpcode s.ir = none) ∨
      (k = .invalidRegisterCode ∧ (∃ o, decodeOpcode s.ir = some o) ∧ ∃ b, c = some b ∧ 3 ≤ b.toNat)) :
    (s.raiseFault k s.ir c).Inv where
  memory := hm
  flags := hf
  record := by simp
  recordAgrees := by
    rintro f ⟨⟩
    exact ⟨rfl, rfl, hk⟩
  halted := by simp
  ready := by simp

/-- A change of memory alone keeps the invariant as long as the memory is canonical (R277). -/
theorem State.Inv.set_mem {s : State} (h : s.Inv) {m : Memory} (hm : m.wf = true) : ({ s with mem := m } : State).Inv where
  memory := hm
  flags := h.flags
  record := h.record
  recordAgrees := h.recordAgrees
  halted := h.halted
  ready := fun hr => by
    rw [h.ready hr]
    rfl

/-- While steps are accepted there is no fault record (R54). -/
theorem State.Inv.flt_eq_none {s : State} (h : s.Inv) (ha : s.accepts = true) : s.flt = none := by
  have hr : s.run ≠ .faulted := by rcases s.accepts_iff.1 ha with hr | hr <;> simp [hr]
  exact Option.not_isSome_iff_eq_none.1 (mt h.record.1 hr)

/-- CMP's flags are never both 1: a zero difference has bit 7 clear (R46, R191). -/
theorem State.flagUpdate_not_both (s : State) (a b : Byte) :
    ¬((s.flagUpdate a b).zf = true ∧ (s.flagUpdate a b).sf = true) := by
  rintro ⟨hz, hs⟩
  rw [State.flagUpdate_zf, beq_iff_eq] at hz
  rw [State.flagUpdate_sf, hz] at hs
  simp at hs

/-- An accepted step keeps the invariant, by the kind of its effect. -/
theorem step_inv (s : State) (h : s.Inv) (ha : s.accepts = true) : ∃ t, step s = .next t ∧ t.Inv := by
  have hn := h.flt_eq_none ha
  refine step_induct _ s ha ?unknown ?fault ?register ?store ?output ?flags ?branch ?halt
  case unknown => exact fun hd => State.raiseFault_inv (s := s.fetched) h.memory h.flags _ _ (.inl ⟨rfl, rfl, hd⟩)
  case fault =>
    intro o c ho hc
    rw [← ho]
    exact State.raiseFault_inv (s := s.fetched) h.memory h.flags _ _
      (.inr ⟨rfl, ⟨o, by simp [ho]⟩, c, rfl, hc.1⟩)
  case register => exact fun o _ _ _ d v => .of_running (by simp [h.memory]) (by simpa using h.flags) (by simp) (by simp [hn])
  case store => exact fun r _ _ => .of_running (Memory.wf_write _ _ _ h.memory) h.flags rfl hn
  case output => exact fun r _ _ => .of_running h.memory h.flags rfl hn
  case flags => exact fun o _ _ _ a b => .of_running h.memory (s.fetched.flagUpdate_not_both a b) rfl hn
  case branch => exact fun o _ _ c => .of_running (by simp [h.memory]) (by simpa using h.flags) (by simp) (by simp [hn])
  case halt =>
    exact fun ho =>
      { memory := h.memory, flags := h.flags, record := by simp [hn], recordAgrees := by simp [hn], halted := fun _ => ho,
        ready := by simp }

/-- A memory patch that is not rejected writes cells and nothing else (R129, R277). -/
theorem patchMemory_eq_ok {text : List Char} {s t : State} (h : patchMemory text s = .ok t) :
    ∃ cells, t = { s with mem := s.mem.patch cells } := by
  unfold patchMemory at h
  split at h
  · next cells _ =>
    cases h
    exact ⟨cells, rfl⟩
  · cases h

end Sys2Proof.Machine
end

section
/-! SUPPORT. Every content of memory has a canonical form (R57), and the digits of an observed byte (R51). -/

namespace Sys2Proof.Machine

/-- Some well-formed memory holds the wanted bytes in any listed cells: write them one by one. -/
theorem Memory.exists_wf_read_eq (f : Byte → Byte) (cells : List Byte) :
    ∃ m : Memory, m.wf = true ∧ ∀ a ∈ cells, m.read a = f a := by
  induction cells with
  | nil => exact ⟨[], Memory.wf_nil, by simp⟩
  | cons c cells ih =>
    obtain ⟨m, hm, hr⟩ := ih
    refine ⟨m.write c (f c), Memory.wf_write m c _ hm, fun a ha => ?_⟩
    rw [Memory.read_write]
    split
    · next hac => rw [hac]
    · next hac => exact hr a ((List.mem_cons.1 ha).resolve_left hac)

/-- A digit does not depend on the default of the lookup (R51). -/
theorem hexDigit_eq (n : Nat) (h : n < 16) (d : Char) : hexDigit n = "0123456789ABCDEF".toList.getD n d := by
  have hl : n < "0123456789ABCDEF".toList.length := h
  rw [hexDigit, List.getD_eq_getElem _ _ hl, List.getD_eq_getElem _ _ hl]

/-- The text of a byte is its two hexadecimal digits, the high one first (R51). -/
theorem hexText_eq_digits (b : Byte) : ∃ x y : Nat, x < 16 ∧ y < 16 ∧ b.toNat = 16 * x + y ∧
    hexText b = ["0123456789ABCDEF".toList.getD x ' ', "0123456789ABCDEF".toList.getD y ' '] := by
  have hx : b.toNat / 16 < 16 := by omega
  have hy : b.toNat % 16 < 16 := by omega
  refine ⟨_, _, hx, hy, by omega, ?_⟩
  rw [hexText, hexDigit_eq _ hx ' ', hexDigit_eq _ hy ' ']

end Sys2Proof.Machine
end

section
/-! SUPPORT. The statements on the state and the step, each from the lemmas above. -/

namespace Sys2Proof.Machine

/-- Settles O51: a rejected step changes nothing, and an accepted one keeps the invariant by the kind of its effect. -/
theorem stepKeepsInvariant : Obligations.StepKeepsInvariant := by
  intro s t h ht
  cases ha : s.accepts with
  | false =>
    cases (step_of_not_accepts ha).symm.trans ht
    exact h
  | true => exact holds_of_step_next (step_inv s h ha) ht

/-- Settles O4: the cells are written one by one, for the list of all addresses. -/
theorem everyMemoryContentIsRepresented : Obligations.EveryMemoryContentIsRepresented := by
  intro f
  obtain ⟨m, hm, hr⟩ := Memory.exists_wf_read_eq f ((List.finRange 256).map BitVec.ofFin)
  exact ⟨m, hm, fun a => hr a (List.mem_map.2 ⟨a.toFin, List.mem_finRange _, rfl⟩)⟩

/-- Settles O12: the fetch of every accepted step overwrites IR. -/
theorem instructionRegisterOnlyRecords : Obligations.InstructionRegisterOnlyRecords := fun s hs =>
  have ha := s.accepts_iff.2 hs
  ⟨step_ir s ha, step_set_ir s ha⟩

/-- Settles O13: by how the step ends, and by the opcode where it goes on. -/
theorem programCounterAfterStep : Obligations.ProgramCounterAfterStep := by
  intro s t hs ht
  obtain ⟨hr, o, ho, hne, hpc⟩ | ⟨hr, hpc, -⟩ | ⟨hr, hpc, -⟩ := holds_of_step_next (step_ends s (s.accepts_iff.2 hs)) ht
  · refine ⟨by simp [hr], fun _ => ?_⟩
    change s.mem.read s.pc = o.byte at ho
    rw [ho]
    by_cases hj : o ∈ jumpOps
    · obtain ⟨hb, hl⟩ := jumpOps_byte_length o hj
      refine .inl ⟨hb, ?_⟩
      rcases hpc with hpc | ⟨-, hpc⟩
      · exact .inr (by rw [hpc, hl, pc_add_toNat])
      · exact .inl hpc
    · have hpc : t.pc.toNat = (s.pc.toNat + o.length) % 256 := by
        rw [hpc.resolve_right fun h => hj h.1, pc_add_toNat]
      obtain ⟨hb, hl⟩ | ⟨hb, hl⟩ := Op.byte_length_of_not_jump hne hj
      · exact .inr (.inl ⟨hb, hl ▸ hpc⟩)
      · exact .inr (.inr ⟨hb, hl ▸ hpc⟩)
  · exact ⟨fun _ => hpc, by simp [hr]⟩
  · exact ⟨fun _ => hpc, by simp [hr]⟩

/-- Settles O14: by how the step ends, which the reported outcome repeats. -/
theorem acceptedStepEndsInReportedRunState : Obligations.AcceptedStepEndsInReportedRunState := by
  intro s hs
  have ha := s.accepts_iff.2 hs
  obtain ⟨t, ht, he⟩ := step_ends s ha
  have hh : hostStep s = some (t, outcomeAfter t) := by rw [hostStep_of_next ht, if_pos ha]
  refine ⟨t, ht, ?_⟩
  rw [hh]
  obtain ⟨hr, o, ho, hne, -⟩ | ⟨hr, -, ho⟩ | ⟨hr, -, ⟨f, hf⟩, ho⟩ := he
  · have ho' : s.mem.read s.pc ≠ 0xFF#8 := fun h => Op.byte_ne_hlt hne (ho.symm.trans h)
    exact ⟨.inl ⟨hr, by rw [outcomeAfter_of_running hr]⟩, by simp [hr, ho']⟩
  · exact ⟨.inr (.inl ⟨hr, by rw [outcomeAfter_of_halted hr]⟩), fun _ => ho, fun _ => hr⟩
  · exact ⟨.inr (.inr ⟨hr, f, hf, by rw [outcomeAfter_of_faulted hr hf]⟩), by simp [hr], fun h => absurd h ho⟩

/-- Settles O43: an accepted step that writes a flag is a CMP that goes on; a rejected one writes nothing. -/
theorem onlyCompareWritesFlags : Obligations.OnlyCompareWritesFlags := by
  intro s t ht hno
  cases ha : s.accepts with
  | false =>
    cases (step_of_not_accepts ha).symm.trans ht
    exact ⟨rfl, rfl⟩
  | true =>
    rcases holds_of_step_next (step_flags s ha) ht with hf | ⟨hc, hr⟩
    · exact hf
    · rcases hno with hno | hno
      · exact absurd hc hno
      · rw [hr] at hno
        cases hno

/-- Settles O50: reset is power-on with no cell listed. -/
theorem powerOnMeetsInvariant : Obligations.PowerOnMeetsInvariant :=
  ⟨State.powerOn_inv [] Memory.wf_nil, State.powerOn_inv⟩

/-- Settles O52, by induction on how the state is reached: steps keep the invariant, reset is power-on, and a load and a patch write
memory alone. -/
theorem reachableStatesMeetInvariant : Obligations.ReachableStatesMeetInvariant := by
  intro s hs
  induction hs with
  | powerOn m hm => exact State.powerOn_inv m hm
  | step s t _ ht ih => exact stepKeepsInvariant s t ih ht
  | reset s _ ih => exact State.powerOn_inv s.mem ih.memory
  | load s image _ ih => exact ih.set_mem (Memory.wf_writeBytes _ _ image ih.memory)
  | patch s t text _ ht ih =>
    obtain ⟨cells, rfl⟩ := patchMemory_eq_ok ht
    exact ih.set_mem (Memory.wf_patch _ cells ih.memory)

/-- Settles O55: one line for each byte, of its two digits; the text grows by one line and a newline. -/
theorem outputIsObservedAsHexLines : Obligations.OutputIsObservedAsHexLines := by
  intro s
  refine ⟨List.length_map _, fun k hk => ?_, s.outText_nil, List.cons_ne_nil _ _, fun older v hv => ?_⟩
  · obtain ⟨x, y, hx, hy, hxy, ht⟩ := hexText_eq_digits s.out[k]
    exact ⟨x, y, hx, hy, hxy, by rw [State.outLines, List.getElem?_map, List.getElem?_eq_getElem hk, Option.map_some, ht]⟩
  · obtain ⟨x, y, hx, hy, hxy, ht⟩ := hexText_eq_digits v
    exact ⟨x, y, hx, hy, hxy, by rw [s.outText_concat older v hv, ht]⟩

/-- Settles O11: no step is accepted in a terminal state. -/
theorem terminalStateRejectsStep : Obligations.TerminalStateRejectsStep := by
  intro s hs
  have ha : s.accepts = false := by rcases hs with hs | hs <;> simp [State.accepts, hs]
  have ht := step_of_not_accepts ha
  exact ⟨ht, by simp [hostStep_of_next ht, ha]⟩

/-- Settles O15: each arm of the dispatch answers a next state, and so does a fault and a rejection. -/
theorem everyInstructionAndStepAnswersNext : Obligations.EveryInstructionAndStepAnswersNext := ⟨exec_next, step_next⟩

end Sys2Proof.Machine
end

section
/-! SUPPORT. A canonical memory, as the set of the cells that do not read as an unlisted cell does (R60). -/

namespace Sys2Proof.Machine

/-- With addresses strictly rising, looking an address up finds exactly the entry that stands at it. -/
theorem Memory.lookup_eq_some_iff (m : Memory) (h : m.Pairwise fun a b => a.1 < b.1) (k : Nat) (v : Byte) :
    m.lookup k = some v ↔ (k, v) ∈ m := by
  induction m with
  | nil => simp
  | cons c m ih =>
    obtain ⟨hc, hm⟩ := List.pairwise_cons.1 h
    rw [Memory.lookup_cons_ite, List.mem_cons, ← ih hm]
    split
    · next hk =>
      have later : m.lookup k ≠ some v := fun hv => absurd (hc _ ((ih hm).1 hv)) (by simp [hk])
      rw [hk] at later
      simp [later, Prod.ext_iff, hk, eq_comm]
    · next hk => simp [Prod.ext_iff, hk]

/-- The entries of a canonical memory are its cells that do not read as an unlisted cell does. -/
theorem Memory.mem_iff_read (m : Memory) (h : m.wf = true) (k : Nat) (v : Byte) :
    (k, v) ∈ m ↔ k < Config.memSize ∧ v ≠ Config.unlistedByte ∧ m.read (BitVec.ofNat 8 k) = v := by
  obtain ⟨hp, hc⟩ := (Memory.wf_iff m).1 h
  have read_eq (hk : k < 256) : m.read (BitVec.ofNat 8 k) = (m.lookup k).getD Config.unlistedByte := by
    rw [Memory.read, BitVec.toNat_ofNat, Nat.mod_eq_of_lt hk]
  constructor
  · intro hm
    obtain ⟨hk, hv⟩ := hc _ hm
    exact ⟨hk, hv, by rw [read_eq hk, (Memory.lookup_eq_some_iff m hp k v).2 hm, Option.getD_some]⟩
  · rintro ⟨hk, hv, hr⟩
    rw [read_eq hk] at hr
    rw [← Memory.lookup_eq_some_iff m hp]
    cases hl : m.lookup k with
    | none => exact absurd (by simpa [hl] using hr.symm) hv
    | some w => simpa [hl] using hr

end Sys2Proof.Machine
end

section
/-! SUPPORT. The memory port: what one step does to memory, and which accesses its opcode makes (R67, R72, R73, R133). -/

namespace Sys2Proof

/-- An instruction is its opcode and its operand bytes (R90, R91). -/
theorem Instr.ext_op_operands {i j : Instr} (ho : i.op = j.op) (hb : i.operands = j.operands) : i = j := by
  rw [← i.eq_instr, ← j.eq_instr, ho, hb]

end Sys2Proof

namespace Sys2Proof.Machine

open Sys2Proof.Claims

/-! What a step does to memory. -/

/-- An accepted step leaves memory alone, or it is a store with a valid register code, which writes the one cell that its first
operand byte names (R67, R133). -/
theorem step_mem (s : State) (ha : s.accepts = true) : ∃ t, step s = .next t ∧
    (t.mem = s.mem ∨ (s.opcodeByte = 0x13#8 ∧ ∃ r, t.mem = s.mem.write s.operand1 (s.reg r))) := by
  refine step_induct _ s ha ?unknown ?fault ?register ?store ?output ?flags ?branch ?halt
  case store => exact fun r ho _ => .inr ⟨ho, r, rfl⟩
  all_goals
    intros
    exact .inl (by simp)

/-- An accepted store with a valid register code writes the cell, advances by three and changes no register (R133). -/
theorem step_store (s : State) (r : Reg) (ha : s.accepts = true) (ho : s.opcodeByte = 0x13#8) (hr : s.operand2 = regCode r) :
    step s = .next ((s.fetched.store s.operand1 (s.reg r)).advance 3) := by
  have hs := step_of_opcode s .movMemReg ha ho
  rw [hs, hr, ← s.fetched_reg r]
  exact congrArg Host.Outcome.next (withReg_regCode _ _ _ _)

/-- The decoder's bytes are the three cells from the PC on (R65, R103). -/
theorem State.fetchWindow_eq_map (s : State) : s.fetchWindow = [s.pc, s.pc + 1#8, s.pc + 2#8].map s.mem.read := rfl

/-! The accesses by opcode. -/

/-- The opcode fetch is the first access of every accepted step; the operand fetches and the data access of a defined opcode
follow (R67, R74). -/
theorem stepAccesses_of_opcode {s : State} {o : Op} (ha : s.accepts = true) (ho : s.opcodeByte = o.byte) :
    stepAccesses s = .fetch s.pc :: (operandFetches s.pc o ++ dataAccess (o.instr s.operand1 s.operand2) s) := by
  simp [stepAccesses, ha, ho]

/-- An undefined opcode makes the opcode fetch and no other access (R106). -/
theorem stepAccesses_of_undefined {s : State} (ha : s.accepts = true) (hd : decodeOpcode s.opcodeByte = none) :
    stepAccesses s = [.fetch s.pc] := by
  simp [stepAccesses, ha, hd]

/-- A rejected step makes no access (R101). -/
theorem stepAccesses_of_not_accepts {s : State} (ha : s.accepts = false) : stepAccesses s = [] := by
  simp [stepAccesses, ha]

/-- Only the forms with an address operand access data (R67, R72). -/
theorem dataAccess_of_no_address (o : Op) (h : o.format ≠ .rm ∧ o.format ≠ .mr) (b1 b2 : Byte) (s : State) :
    dataAccess (o.instr b1 b2) s = [] := by
  cases o with
  | movRegMem | addRegMem | subRegMem | cmpRegMem => exact absurd rfl h.1
  | movMemReg => exact absurd rfl h.2
  | _ => rfl

/-- A `reg, [addr]` form reads the byte it names, unless its register code is invalid (R67, R72, R105). -/
theorem dataAccess_of_load (o : Op) (h : o.format = .rm) (b1 b2 : Byte) (s : State) :
    dataAccess (o.instr b1 b2) s = if 3 ≤ b1.toNat then [] else [.read b2] := by
  simp only [← regOfCode_eq_none_iff]
  cases o with
  | movRegMem | addRegMem | subRegMem | cmpRegMem => cases hr : regOfCode b1 <;> simp [Op.instr, dataAccess, hr]
  | _ => cases h

/-- A store with a valid register code writes the register to the cell it names (R67, R73). -/
theorem dataAccess_store_regCode (a : Byte) (r : Reg) (s : State) :
    dataAccess (.movMemReg a (regCode r)) s = [.write a (s.reg r)] := by
  simp [dataAccess]

/-- A store with an invalid register code faults before the write (R67, R105). -/
theorem dataAccess_store_of_invalid (a : Byte) {b : Byte} (h : 3 ≤ b.toNat) (s : State) : dataAccess (.movMemReg a b) s = [] := by
  simp [dataAccess, (regOfCode_eq_none_iff b).2 h]

/-- A step of an opcode without an address operand makes its fetches and nothing else (R67). -/
theorem stepAccesses_of_no_address {s : State} {o : Op} (ha : s.accepts = true) (ho : s.opcodeByte = o.byte)
    (h : o.format ≠ .rm ∧ o.format ≠ .mr) : stepAccesses s = .fetch s.pc :: operandFetches s.pc o := by
  rw [stepAccesses_of_opcode ha ho, dataAccess_of_no_address o h, List.append_nil]

/-- A listed opcode byte is the byte of an opcode that has what all the listed opcodes have. -/
theorem exists_op_of_mem_map_byte {ops : List Op} {p : Op → Prop} (hp : ∀ o ∈ ops, p o) {b : Byte} (hb : b ∈ ops.map Op.byte) :
    ∃ o, p o ∧ b = o.byte := by
  obtain ⟨o, ho, rfl⟩ := List.mem_map.1 hb
  exact ⟨o, hp o ho, rfl⟩

/-- A byte in one of R98's ranges selects no opcode. -/
theorem decodeOpcode_of_undefinedOpcode {b : Byte} (h : UndefinedOpcode b) : decodeOpcode b = none := by
  have defined (o : Op) : ¬UndefinedOpcode o.byte := by cases o <;> decide
  cases hd : decodeOpcode b with
  | none => rfl
  | some o => exact absurd ((decodeOpcode_eq_some_iff b o).1 hd ▸ h) (defined o)

end Sys2Proof.Machine
end

section
/-! SUPPORT. A step on two memories: what it does with the memory of a state and with any other that agrees on the cells its
accesses read (R67, R72, R73). -/

namespace Sys2Proof.Machine

/-- The memory `m` agrees with the memory of `s` on every cell that an access of the list reads. -/
def ReadsAgree (acc : List Access) (s : State) (m : Memory) : Prop :=
  ∀ x ∈ acc, ∀ a, x.readAddr = some a → m.read a = s.mem.read a

/-- `t` follows from `s` and `t'` from `s` with memory `m` by the same action: they differ in memory alone, and each cell holds in
both the byte that an access of the list writes to it, or in each what it held before. -/
def ActsAlike (acc : List Access) (s : State) (m : Memory) (t t' : State) : Prop :=
  ∃ n, t' = { t with mem := n } ∧ ∀ a, (∃ v, Access.write a v ∈ acc ∧ t.mem.read a = v ∧ n.read a = v) ∨
    (t.mem.read a = s.mem.read a ∧ n.read a = m.read a)

section
variable {acc : List Access} {s : State} {m : Memory}

theorem ReadsAgree.mono {acc' : List Access} (h : ReadsAgree acc s m) (hs : acc' ⊆ acc) : ReadsAgree acc' s m :=
  fun x hx => h x (hs hx)

theorem ActsAlike.mono {acc' : List Access} {t t' : State} (h : ActsAlike acc s m t t') (hs : acc ⊆ acc') :
    ActsAlike acc' s m t t' := by
  obtain ⟨n, ht, hc⟩ := h
  exact ⟨n, ht, fun a => (hc a).imp_left fun ⟨v, hv, h⟩ => ⟨v, hs hv, h⟩⟩

/-- An action that leaves memory alone. -/
theorem ActsAlike.of_mem_eq {t : State} (h : t.mem = s.mem) : ActsAlike acc s m t { t with mem := m } :=
  ⟨m, rfl, fun a => .inr ⟨by rw [h], rfl⟩⟩

theorem ActsAlike.setReg (d : Reg) (v : Byte) (n : Nat) :
    ActsAlike acc s m ((s.setReg d v).advance n) ((({ s with mem := m } : State).setReg d v).advance n) := by
  cases d <;> exact .of_mem_eq rfl

theorem ActsAlike.branch (c : Bool) (t : Byte) :
    ActsAlike acc s m (s.branch c t) (({ s with mem := m } : State).branch c t) := by
  cases c <;> exact .of_mem_eq rfl

/-- A store writes the same byte to the same cell of both memories. -/
theorem ActsAlike.store (a v : Byte) (n : Nat) (h : Access.write a v ∈ acc) :
    ActsAlike acc s m ((s.store a v).advance n) ((({ s with mem := m } : State).store a v).advance n) := by
  refine ⟨m.write a v, rfl, fun b => ?_⟩
  by_cases hb : b = a
  · subst hb
    exact .inl ⟨v, h, Memory.read_write_self _ _ _, Memory.read_write_self _ _ _⟩
  · exact .inr ⟨Memory.read_write_of_ne _ _ _ _ hb, Memory.read_write_of_ne _ _ _ _ hb⟩

/-- The register check does not look at memory, and its fault leaves memory alone (R104). -/
theorem ActsAlike.withReg (o : Op) (b : Byte) {k k' : Reg → State}
    (h : ∀ r, b = regCode r → ActsAlike acc s m (k r) (k' r)) :
    ActsAlike acc s m (withReg o b s k) (withReg o b { s with mem := m } k') := by
  rcases regOfCode_cases b with ⟨r, rfl, -⟩ | ⟨hb, -⟩
  · rw [withReg_regCode, withReg_regCode]
    exact h r rfl
  · rw [withReg_of_invalid _ _ _ _ hb, withReg_of_invalid _ _ _ _ hb]
    exact .of_mem_eq rfl

end

/-- The data access of an instruction depends on no item of state but the registers. -/
theorem dataAccess_congr (i : Instr) {s t : State} (h : ∀ r, t.reg r = s.reg r) : dataAccess i t = dataAccess i s := by
  unfold dataAccess
  simp only [h]

/-- An instruction acts alike on two memories that agree where its data access reads, one case for each instruction rule. -/
theorem exec_actsAlike (i : Instr) (s : State) (m : Memory) (h : ReadsAgree (dataAccess i s) s m) :
    ∃ t t', exec i s = .next t ∧ exec i { s with mem := m } = .next t' ∧ ActsAlike (dataAccess i s) s m t t' := by
  have loaded {a : Byte} (hx : Access.read a ∈ dataAccess i s) : memOperand { s with mem := m } a = memOperand s a := h _ hx a rfl
  cases i with
  | movRegImm d i | addRegImm d i | subRegImm d i | incReg d | decReg d =>
    exact ⟨_, _, rfl, rfl, .withReg _ _ fun r _ => .setReg _ _ _⟩
  | movRegReg d q | addRegReg d q | subRegReg d q =>
    exact ⟨_, _, rfl, rfl, .withReg _ _ fun r _ => .withReg _ _ fun q _ => .setReg _ _ _⟩
  | movRegMem d a | addRegMem d a | subRegMem d a =>
    refine ⟨_, _, rfl, rfl, .withReg _ _ fun r hr => ?_⟩
    rw [loaded (by simp [dataAccess, hr])]
    exact .setReg _ _ _
  | movMemReg a q => exact ⟨_, _, rfl, rfl, .withReg _ _ fun r hr => .store _ _ _ (by simp [dataAccess, hr])⟩
  | outReg d | cmpRegImm d i => exact ⟨_, _, rfl, rfl, .withReg _ _ fun r _ => .of_mem_eq rfl⟩
  | cmpRegReg d q => exact ⟨_, _, rfl, rfl, .withReg _ _ fun r _ => .withReg _ _ fun q _ => .of_mem_eq rfl⟩
  | cmpRegMem d a =>
    refine ⟨_, _, rfl, rfl, .withReg _ _ fun r hr => ?_⟩
    rw [loaded (by simp [dataAccess, hr])]
    exact .of_mem_eq rfl
  | jmp a | hlt => exact ⟨_, _, rfl, rfl, .of_mem_eq rfl⟩
  | je a | jne a | jg a | jl a => exact ⟨_, _, rfl, rfl, .branch _ _⟩

/-- The operand bytes of an opcode are the cells its operand fetches read, so memories that agree there hold the same
instruction (R103). -/
theorem instr_eq_of_readsAgree (o : Op) (s : State) (m : Memory) (h : ReadsAgree (operandFetches s.pc o) s m) :
    o.instr (m.read (s.pc + 1#8)) (m.read (s.pc + 2#8)) = o.instr s.operand1 s.operand2 := by
  refine Instr.ext_op_operands (by simp) ?_
  have agree : ∀ a ∈ [s.pc + 1#8, s.pc + 2#8].take o.format.operandCount, m.read a = s.mem.read a :=
    fun a ha => h _ (List.mem_map_of_mem ha) a rfl
  rw [Op.instr_operands, Op.instr_operands]
  have same := List.map_congr_left agree
  rw [List.map_take, List.map_take] at same
  exact same

/-- The fetch is the same on two memories that agree at the PC (R102). -/
theorem State.fetched_set_mem {s : State} {m : Memory} (h : m.read s.pc = s.opcodeByte) :
    ({ s with mem := m } : State).fetched = { s.fetched with mem := m } := by
  simp only [State.fetched, ← h]
  rfl

/-- The step of an undefined opcode is its fault (R106). -/
theorem step_of_undefined {s : State} (ha : s.accepts = true) (hd : decodeOpcode s.opcodeByte = none) :
    step s = .next s.unknownOpcode := by
  simp [step, State.fetchInstr_eq, ha, hd]

/-- A step makes the same accesses and acts alike on two memories that agree where its accesses read. -/
theorem step_actsAlike (s : State) (m : Memory) (h : ReadsAgree (stepAccesses s) s m) :
    stepAccesses { s with mem := m } = stepAccesses s ∧
      ∃ t t', step s = .next t ∧ step { s with mem := m } = .next t' ∧ ActsAlike (stepAccesses s) s m t t' := by
  let s' : State := { s with mem := m }
  have same_opcode (hf : Access.fetch s.pc ∈ stepAccesses s) : s'.opcodeByte = s.opcodeByte := h _ hf s.pc rfl
  rcases step_cases s with ⟨ha, hs⟩ | ⟨ha, hd, hs⟩ | ⟨o, ha, ho, hs⟩
  · exact ⟨(stepAccesses_of_not_accepts (s := s') ha).trans (stepAccesses_of_not_accepts ha).symm,
      _, _, hs, step_of_not_accepts (s := s') ha, .of_mem_eq rfl⟩
  · have hx := stepAccesses_of_undefined ha hd
    have hf := same_opcode (by simp [hx])
    have hd' : decodeOpcode s'.opcodeByte = none := by rw [hf, hd]
    refine ⟨(stepAccesses_of_undefined (s := s') ha hd').trans hx.symm, _, _, hs, step_of_undefined (s := s') ha hd', ?_⟩
    rw [State.unknownOpcode_eq, State.unknownOpcode_eq, hf, State.fetched_set_mem (s := s) hf]
    exact .of_mem_eq rfl
  · have hx := stepAccesses_of_opcode ha ho
    have hf := same_opcode (by simp [hx])
    have ho' : s'.opcodeByte = o.byte := hf.trans ho
    have same_instr : o.instr s'.operand1 s'.operand2 = o.instr s.operand1 s.operand2 :=
      instr_eq_of_readsAgree o s m (h.mono (by simp [hx]))
    have hx' : stepAccesses s' = stepAccesses s := by
      rw [stepAccesses_of_opcode (s := s') ha ho', same_instr, dataAccess_congr (s := s) _ fun r => by cases r <;> rfl, hx]
    have hd := dataAccess_congr (o.instr s.operand1 s.operand2) s.fetched_reg
    obtain ⟨t, t', ht, ht', hact⟩ := exec_actsAlike (o.instr s.operand1 s.operand2) s.fetched m
      (h.mono (by simp [hd, hx]))
    rw [hd] at hact
    refine ⟨hx', t, t', hs.trans ht, ?_, hact.mono (by simp [hx])⟩
    rw [step_of_opcode s' o ha ho', same_instr, State.fetched_set_mem (s := s) hf, ht']

end Sys2Proof.Machine
end

section
/-! SUPPORT. The statements on memory, each from the lemmas above. -/

namespace Sys2Proof.Machine

open Sys2Proof.Claims

/-- Settles O3: equal cells are equal entries, and a strictly rising list is fixed by its entries. -/
theorem canonicalMemoriesWithEqualCellsAreEqual : Obligations.CanonicalMemoriesWithEqualCellsAreEqual := by
  intro m n hm hn heq
  have : Std.Irrefl fun a b : Host.Cell => a.1 < b.1 := ⟨fun a => Nat.lt_irrefl a.1⟩
  have : Std.Antisymm fun a b : Host.Cell => a.1 < b.1 := ⟨fun a b hab hba => absurd hba (Nat.lt_asymm hab)⟩
  have same_entries : ∀ c, c ∈ m ↔ c ∈ n := fun (k, v) => by rw [Memory.mem_iff_read m hm, Memory.mem_iff_read n hn, heq]
  exact ((Memory.wf_iff m).1 hm).1.eq_of_mem_iff ((Memory.wf_iff n).1 hn).1 same_entries

/-- Settles O44: only a store changes memory, and a write changes the one cell it names. -/
theorem onlyStoreWritesMemory : Obligations.OnlyStoreWritesMemory := by
  intro s t ht a hne
  cases ha : s.accepts with
  | false =>
    cases (step_of_not_accepts ha).symm.trans ht
    exact absurd rfl hne
  | true =>
    obtain hm | ⟨ho, r, hm⟩ := holds_of_step_next (step_mem s ha) ht
    · exact absurd (by rw [hm]) hne
    · have haddr : a = s.operand1 := by
        by_contra h
        exact hne (by rw [hm, Memory.read_write_of_ne _ _ _ _ h])
      exact ⟨ho, haddr, r, by rw [hm, haddr, Memory.read_write_self]⟩

/-- Settles O46: the operand bytes are read before the write, and the next fetch reads the memory after it. -/
theorem storeIsSeenByEveryLaterFetch : Obligations.StoreIsSeenByEveryLaterFetch := by
  intro s r hs ho hr
  have cells (a : Byte) : (s.mem.write s.operand1 (s.reg r)).read a = if a = s.operand1 then s.reg r else s.mem.read a :=
    Memory.read_write _ _ _ _
  refine ⟨_, step_store s r (s.accepts_iff.2 hs) ho hr, rfl, by simp, cells, ?_⟩
  have h4 : s.pc + 3#8 + 1#8 = s.pc + 4#8 := by bv_omega
  have h5 : s.pc + 3#8 + 2#8 = s.pc + 5#8 := by bv_omega
  rw [State.fetchWindow_eq_map, ← h4, ← h5]
  exact List.map_congr_left fun a _ => cells a

/-- Settles O47: the opcode's format gives the operand fetches and says whether there is a data access. -/
theorem stepMakesTheListedAccesses : Obligations.StepMakesTheListedAccesses := by
  intro s hs
  have ha := s.accepts_iff.2 hs
  refine ⟨?fetch_only, ?two, ?three, ?load, ?store⟩
  case fetch_only =>
    rintro (h | h)
    · exact stepAccesses_of_undefined ha (decodeOpcode_of_undefinedOpcode h)
    · exact stepAccesses_of_no_address (o := .hlt) ha h (by decide)
  case two =>
    intro h
    obtain ⟨o, ⟨hc, hf⟩, ho⟩ := exists_op_of_mem_map_byte (ops := [.incReg, .decReg, .outReg, .jmp, .je, .jne, .jg, .jl])
      (p := fun o => o.format.operandCount = 1 ∧ o.format ≠ .rm ∧ o.format ≠ .mr) (by decide) h
    rw [stepAccesses_of_no_address ha ho hf, operandFetches, hc]
    rfl
  case three =>
    intro h
    obtain ⟨o, ⟨hc, hf⟩, ho⟩ := exists_op_of_mem_map_byte
      (ops := [.movRegImm, .movRegReg, .addRegImm, .addRegReg, .subRegImm, .subRegReg, .cmpRegImm, .cmpRegReg])
      (p := fun o => o.format.operandCount = 2 ∧ o.format ≠ .rm ∧ o.format ≠ .mr) (by decide) h
    rw [stepAccesses_of_no_address ha ho hf, operandFetches, hc]
    rfl
  case load =>
    intro h
    obtain ⟨o, hf, ho⟩ := exists_op_of_mem_map_byte (ops := [.movRegMem, .addRegMem, .subRegMem, .cmpRegMem])
      (p := fun o => o.format = .rm) (by decide) h
    have hx : stepAccesses s = [Access.fetch s.pc, .operand (s.pc + 1#8), .operand (s.pc + 2#8)] ++
        if 3 ≤ s.operand1.toNat then [] else [.read s.operand2] := by
      rw [stepAccesses_of_opcode ha ho, dataAccess_of_load o hf, operandFetches, hf]
      rfl
    exact hx.trans (apply_ite (HAppend.hAppend _) _ _ _)
  case store =>
    intro h
    have hx := stepAccesses_of_opcode (o := .movMemReg) ha h
    rw [hx, Op.instr]
    refine ⟨fun (hb : 3 ≤ s.operand2.toNat) => ?_, fun r (hr : s.operand2 = regCode r) => ?_⟩
    · rw [dataAccess_store_of_invalid _ hb]
      rfl
    · rw [hr, dataAccess_store_regCode]
      rfl

/-- Settles O48: the step acts alike on both memories, case by case of what a step can do. -/
theorem stepDependsOnlyOnListedAccesses : Obligations.StepDependsOnlyOnListedAccesses := by
  intro s m h
  obtain ⟨hx, t, _, ht, ht', n, rfl, hc⟩ := step_actsAlike s m h
  exact ⟨hx, t, n, ht, ht', hc⟩

end Sys2Proof.Machine
end

section
/-! SUPPORT. Decoding and encoding as inverses: what the decoder accepts, operand by operand (R90, R91, R92). -/

namespace Sys2Proof

/-- No format has more than two operand bytes (R91). -/
theorem Format.operandCount_le_two (f : Format) : f.operandCount ≤ 2 := by cases f <;> decide

/-- The decoder's default for an absent byte never shows among the operand bytes that are there. -/
theorem take_getD_eq_take {n : Nat} {bs : List Byte} (hn : n ≤ 2) (hb : n ≤ bs.length) :
    [bs.getD 0 0#8, bs.getD 1 0#8].take n = bs.take n := by
  match n, bs with
  | 0, _ => rfl
  | 1, _ :: _ => rfl
  | 2, _ :: _ :: _ => rfl

/-- The operand bytes that the decoder gives an instruction are the bytes that follow its opcode byte (R91). -/
theorem Op.instr_getD_operands {o : Op} {bs : List Byte} (hb : o.format.operandCount ≤ bs.length) :
    (o.instr (bs.getD 0 0#8) (bs.getD 1 0#8)).operands = bs.take o.format.operandCount := by
  rw [Op.instr_operands, take_getD_eq_take o.format.operandCount_le_two hb]

/-- All that the decoder accepts: an opcode's byte and at least its operand bytes (R91, R97, R98). -/
theorem decode_cons_eq_ok_iff (b : Byte) (bs : List Byte) (r : Instr × List Byte) :
    decode (b :: bs) = .ok r ↔ ∃ o : Op, b = o.byte ∧ o.format.operandCount ≤ bs.length ∧
      r = (o.instr (bs.getD 0 0#8) (bs.getD 1 0#8), bs.drop o.format.operandCount) := by
  simp only [← decodeOpcode_eq_some_iff, decode]
  cases decodeOpcode b with
  | none => simp
  | some o =>
    by_cases h : bs.length < o.format.operandCount
    · simp [h]
    · simp [h, Nat.le_of_not_lt h, eq_comm]

/-- An encoded instruction decodes to itself, whatever bytes follow (R90, R91). -/
theorem decode_encode_append (i : Instr) (rest : List Byte) : decode (encode i ++ rest) = .ok (i, rest) := by
  have hl : i.op.format.operandCount ≤ (i.operands ++ rest).length := by
    rw [List.length_append, i.operands_length]
    exact Nat.le_add_right _ _
  rw [encode, List.cons_append, decode_cons_eq_ok_iff]
  refine ⟨i.op, rfl, hl, Prod.ext (Instr.ext_op_operands (by simp) ?_) ?_⟩
  · rw [Op.instr_getD_operands hl, ← i.operands_length, List.take_left]
  · rw [← i.operands_length, List.drop_left]

/-- Bytes that decode are the encoding of what they decode to, and the rest (R97, R99). -/
theorem eq_encode_append_of_decode {bytes : List Byte} {i : Instr} {rest : List Byte} (h : decode bytes = .ok (i, rest)) :
    bytes = encode i ++ rest := by
  cases bytes with
  | nil => cases h
  | cons b bs =>
    obtain ⟨o, rfl, hl, hr⟩ := (decode_cons_eq_ok_iff _ _ _).1 h
    cases hr
    rw [encode, Op.instr_op, Op.instr_getD_operands hl, List.cons_append, List.take_append_drop]

/-- The encoding is as long as its opcode says (R92). -/
theorem encode_length (i : Instr) : (encode i).length = i.op.length := by
  rw [encode, List.length_cons, i.operands_length, Op.length, Nat.add_comm]

/-- The defined opcode bytes among all bytes are the bytes of the 22 opcodes, each once (R96, R97). -/
theorem definedOpcodes_perm :
    ((List.range 256).filter fun n => (decodeOpcode (BitVec.ofNat 8 n)).isSome).Perm (Op.all.map fun o => o.byte.toNat) := by
  refine (List.perm_ext_iff_of_nodup (List.nodup_range.filter _) (by decide)).2 fun n => ?_
  simp only [List.mem_filter, List.mem_range, List.mem_map, Option.isSome_iff_exists, decodeOpcode_eq_some_iff]
  constructor
  · rintro ⟨hn, o, ho⟩
    exact ⟨o, o.mem_all, by rw [← ho, BitVec.toNat_ofNat, Nat.mod_eq_of_lt hn]⟩
  · rintro ⟨o, -, rfl⟩
    exact ⟨o.byte.isLt, o, by simp⟩

/-- Of the 256 bytes all but 22 select no opcode (R98). -/
theorem undefinedOpcodes_length :
    ((List.range 256).filter fun n => (decodeOpcode (BitVec.ofNat 8 n)).isNone).length = 234 := by
  have total := List.length_eq_length_filter_add (l := List.range 256) fun n => (decodeOpcode (BitVec.ofNat 8 n)).isSome
  have defined := definedOpcodes_perm.length_eq.trans (show _ = 22 from rfl)
  simp only [List.length_range, Option.not_isSome, defined] at total
  omega

/-- The instruction lengths of R92, opcode byte by opcode byte. -/
theorem Op.length_eq_by_byte (o : Op) :
    o.length = if o.byte = 0xFF#8 then 1
      else if o.byte ∈ [0x40#8, 0x41#8, 0x50#8, 0x60#8, 0x80#8, 0x81#8, 0x82#8, 0x83#8] then 2 else 3 := by
  cases o <;> decide

end Sys2Proof

namespace Sys2Proof.Machine

/-- The instruction at the PC is the one its three bytes decode to (R103, R106). -/
theorem State.fetchInstr_of_decode {s : State} {i : Instr} {rest : List Byte} (h : decode s.fetchWindow = .ok (i, rest)) :
    s.fetchInstr = some i := by
  rw [State.fetchInstr, h]

end Sys2Proof.Machine
end

section
/-! SUPPORT. The datapath as a register check followed by the control word's writes, the shape of the instruction rules
(R105, R111). -/

namespace Sys2Proof.Machine

/-- What the control word `c` does once the register check has selected `d` and `q` (R111). -/
def controlWrites (c : Control) (d q : Reg) (b1 b2 : Byte) (s : State) : State :=
  let r := resultBus c.fn (s.reg d) (inputB c (s.reg q) b2 s) (s.reg q)
  { (if c.regWrite then s.setReg d r else s) with
    pc := nextPc c.next b1 s
    zf := if c.flagWrite then r == 0x00#8 else s.zf
    sf := if c.flagWrite then r.getLsbD 7 else s.sf
    mem := if c.memWrite then s.mem.write b1 r else s.mem
    out := if c.fn = .output then s.out ++ [r] else s.out
    run := if c.fn = .halt then .halted else s.run }

/-- The register check of a format's byte, where the format has one (R91, R104). -/
def checkReg (o : Op) (b : Option Byte) (s : State) (k : Reg → State) : State :=
  match b with
  | some b => withReg o b s k
  | none => k .r0

/-- The two checks in byte order, `B1` before `B2`, are the search for the first invalid register byte (R105). -/
theorem checkReg_checkReg (o : Op) (x y : Option Byte) (s : State) (k : Reg → Reg → State) :
    (checkReg o x s fun d => checkReg o y s fun q => k d q) =
      (firstInvalid (x, y)).elim (k (selected x) (selected y)) fun c =>
        s.raiseFault .invalidRegisterCode o.byte (some c) := by
  have single (b : Option Byte) (k : Reg → State) : checkReg o b s k =
      (b.filter fun b => (regOfCode b).isNone).elim (k (selected b)) fun c =>
        s.raiseFault .invalidRegisterCode o.byte (some c) := by
    cases b with
    | none => rfl
    | some b => cases h : regOfCode b <;> simp [checkReg, withReg, selected, Option.filter, h]
  rw [single x, firstInvalid]
  cases x.filter fun b => (regOfCode b).isNone with
  | some c => rfl
  | none => exact single y _

/-- The datapath checks the register bytes of the format, then does what the control word says. -/
theorem runDatapath_eq (o : Op) (b1 b2 : Byte) (s : State) :
    runDatapath o b1 b2 s =
      checkReg o (registerBytes o.format b1 b2).1 s fun d => checkReg o (registerBytes o.format b1 b2).2 s fun q =>
        controlWrites (controlWord o) d q b1 b2 s := by
  rw [checkReg_checkReg, runDatapath]
  cases firstInvalid (registerBytes o.format b1 b2) <;> rfl

/-! What the control words of the ALU instructions and of the conditional jumps write. -/

section
variable (d q : Reg) (b1 b2 : Byte) (s : State)

/-- An ALU word writes the result to its register and advances (R150). -/
theorem controlWrites_alu (f : Function) (b : OperandB) (n : Nat) (hf : f ≠ .output) (hh : f ≠ .halt) :
    controlWrites (controlAlu f b n) d q b1 b2 s =
      (s.setReg d (resultBus f (s.reg d) (inputB (controlAlu f b n) (s.reg q) b2 s) (s.reg q))).advance n := by
  cases d <;> simp [controlWrites, controlAlu, nextPc, hf, hh, State.setReg, State.advance]

/-- A conditional jump's word branches on the flags it tests (R196). -/
theorem controlWrites_branch (z f : Option Bool) :
    controlWrites (controlFlow .idle (.targetIf z f)) d q b1 b2 s =
      s.branch (decide (z.getD s.zf = s.zf ∧ f.getD s.sf = s.sf)) b1 := by
  rw [State.branch_eq]
  simp [controlWrites, controlFlow, nextPc]

end

end Sys2Proof.Machine
end

section
/-! SUPPORT. Bytes written into consecutive cells (R60, R127). -/

namespace Sys2Proof.Machine

/-- A read after at most 256 bytes are written from `a` on: the byte written as far from `a` as the cell is, else what was there. -/
theorem Memory.read_writeBytes (m : Memory) (a c : Byte) (bs : List Byte) (h : bs.length ≤ 256) :
    (m.writeBytes a bs).read c = (bs[(c - a).toNat]?).getD (m.read c) := by
  induction bs generalizing m a with
  | nil => rfl
  | cons b bs ih =>
    rw [List.length_cons] at h
    rw [Memory.writeBytes, ih _ _ (by omega), Memory.read_write]
    by_cases hc : c = a
    · have past_end : bs.length ≤ (c - (a + 1#8)).toNat := by bv_omega
      rw [List.getElem?_eq_none past_end, hc, BitVec.sub_self]
      simp
    · have one_further : (c - a).toNat = (c - (a + 1#8)).toNat + 1 := by bv_omega
      rw [if_neg hc, one_further, List.getElem?_cons_succ]

end Sys2Proof.Machine
end

section
/-! SUPPORT. What the assembler makes of one line: the operands fit the opcode's format, so the bytes are an instruction's
(R94, R123 to R125). -/

namespace Sys2Proof

/-- Which operand positions of a format hold a register code (R91, R95). -/
def Format.registerPositions : Format → List Bool
  | .n => []
  | .t => [false]
  | .r => [true]
  | .ri | .rm => [true, false]
  | .rr => [true, true]
  | .mr => [false, true]

theorem Format.registerPositions_length (f : Format) : f.registerPositions.length = f.operandCount := by cases f <;> rfl

/-- An instruction is well formed when the bytes in its format's register positions are register codes (R95). -/
theorem Instr.wf_iff (i : Instr) : i.wf = true ↔
    List.Forall₂ (fun isReg b => isReg = true → isRegCode b = true) i.op.format.registerPositions i.operands := by
  cases i <;> simp [Instr.wf, Instr.op, Op.format, Format.registerPositions, Instr.operands]

/-- An opcode and as many bytes as its format has operands make an instruction (R91). -/
theorem exists_instr_op_operands (o : Op) (bs : List Byte) (h : bs.length = o.format.operandCount) :
    ∃ i : Instr, i.op = o ∧ i.operands = bs :=
  ⟨_, o.instr_op _ _, by rw [Op.instr_getD_operands h.ge, ← h, List.take_length]⟩

theorem isRegCode_regCode (r : Reg) : isRegCode (Machine.regCode r) = true := by cases r <;> decide

end Sys2Proof

namespace Sys2Proof.Machine

/-- The results of `allSome` are the elements' results, one by one. -/
theorem allSome_forall₂ {α β : Type} {f : α → Option β} {as : List α} {bs : List β} (h : allSome f as = some bs) :
    List.Forall₂ (fun a b => f a = some b) as bs := by
  induction as generalizing bs with
  | nil =>
    cases h
    exact .nil
  | cons a as ih =>
    unfold allSome at h
    split at h
    · next hb hbs =>
      cases h
      exact .cons hb (ih hbs)
    · cases h

/-- The shapes of ADD, SUB and CMP have their registers where the formats of the three opcodes have them (R125). -/
theorem shapeAlu_registerPositions {ri rr rm o : Op} (hri : ri.format = .ri) (hrr : rr.format = .rr) (hrm : rm.format = .rm)
    {tags : List OperandTag} (h : shapeAlu ri rr rm tags = some o) :
    tags.map (· == .reg) = o.format.registerPositions := by
  unfold shapeAlu at h
  split at h <;> cases h
  · exact congrArg Format.registerPositions hri.symm
  · exact congrArg Format.registerPositions hrr.symm
  · exact congrArg Format.registerPositions hrm.symm

/-- INC, DEC and OUT have one register (R125). -/
theorem shapeReg_registerPositions {p o : Op} (hp : p.format = .r) {tags : List OperandTag} (h : shapeReg p tags = some o) :
    tags.map (· == .reg) = o.format.registerPositions := by
  unfold shapeReg at h
  split at h <;> cases h
  exact congrArg Format.registerPositions hp.symm

/-- The jumps have one operand, which is no register (R125). -/
theorem shapeJump_registerPositions {js : Config.JmpNumericSyntax} {p o : Op} (hp : p.format = .t) {tags : List OperandTag}
    (h : shapeJump js p tags = some o) : tags.map (· == .reg) = o.format.registerPositions := by
  have hr : [false] = p.format.registerPositions := congrArg Format.registerPositions hp.symm
  unfold shapeJump at h
  split at h
  · cases h
    exact hr
  · cases (Option.ite_none_right_eq_some.1 h).2
    exact hr
  · cases (Option.ite_none_right_eq_some.1 h).2
    exact hr
  · cases h

/-- The register operands of an accepted shape stand where the opcode's format has its register codes (R91, R125). -/
theorem opForShape_registerPositions {js : Config.JmpNumericSyntax} {m : Mnemonic} {tags : List OperandTag} {o : Op}
    (h : opForShape js m tags = some o) : tags.map (· == .reg) = o.format.registerPositions := by
  cases m with
  | mov =>
    rw [opForShape] at h
    split at h
    · next ht =>
      cases h
      rw [ht]
      rfl
    · exact shapeAlu_registerPositions rfl rfl rfl h
  | add | sub | cmp => exact shapeAlu_registerPositions rfl rfl rfl h
  | inc | dec | out => exact shapeReg_registerPositions rfl h
  | jmp | je | jne | jg | jl => exact shapeJump_registerPositions rfl h
  | hlt =>
    obtain ⟨ht, ho⟩ := Option.ite_none_right_eq_some.1 h
    cases ho
    rw [ht]
    rfl

/-- A register operand is encoded as a register code (R94). -/
theorem isRegCode_of_operandByte {st : SymbolTable} {x : Operand} {b : Byte} (h : operandByte st x = some b)
    (hx : (x.tag == .reg) = true) : isRegCode b = true := by
  cases x with
  | reg r =>
    cases h
    exact isRegCode_regCode r
  | addr a | imm i | label n => cases hx

/-- What the assembler makes of a line with words: its mnemonic's opcode byte and one byte for each operand (R94, R123). -/
theorem assembleWords_eq_ok {js : Config.JmpNumericSyntax} {st : SymbolTable} {w : List Char} {ws : List (List Char)}
    {bytes : List Byte} (h : assembleWords js st (w :: ws) = .ok bytes) :
    ∃ m os o bs, allSome classify ws = some os ∧ opForShape js m (os.map Operand.tag) = some o ∧
      allSome (operandByte st) os = some bs ∧ bytes = o.byte :: bs := by
  simp only [assembleWords] at h
  split at h
  · cases h
  next m _ =>
  split at h
  · cases h
  next os hos =>
  split at h
  · cases h
  next o ho =>
  split at h
  · cases h
  next bs hbs =>
  cases h
  exact ⟨m, os, o, bs, hos, ho, hbs, rfl⟩

/-- The assembler makes one byte of each word of a line (R122). -/
theorem assembleWords_length {js : Config.JmpNumericSyntax} {st : SymbolTable} {words : List (List Char)} {bytes : List Byte}
    (h : assembleWords js st words = .ok bytes) : bytes.length = words.length := by
  cases words with
  | nil =>
    cases h
    rfl
  | cons w ws =>
    obtain ⟨m, os, o, bs, hos, -, hbs, rfl⟩ := assembleWords_eq_ok h
    rw [List.length_cons, List.length_cons, ← (allSome_forall₂ hbs).length_eq, ← (allSome_forall₂ hos).length_eq]

/-- The bytes of a line with words are the encoding of a well-formed instruction (R95, R125). -/
theorem assembleWords_eq_encode {js : Config.JmpNumericSyntax} {st : SymbolTable} {w : List Char} {ws : List (List Char)}
    {bytes : List Byte} (h : assembleWords js st (w :: ws) = .ok bytes) : ∃ i : Instr, bytes = encode i ∧ i.wf = true := by
  obtain ⟨m, os, o, bs, -, ho, hbs, rfl⟩ := assembleWords_eq_ok h
  have hpos : List.Forall₂ (fun isReg b => isReg = true → isRegCode b = true) o.format.registerPositions bs := by
    rw [← opForShape_registerPositions ho, List.map_map, List.forall₂_map_left_iff]
    exact (allSome_forall₂ hbs).imp fun _ _ hb => isRegCode_of_operandByte hb
  obtain ⟨i, rfl, rfl⟩ := exists_instr_op_operands o bs (hpos.length_eq.symm.trans o.format.registerPositions_length)
  exact ⟨i, rfl, i.wf_iff.2 hpos⟩

end Sys2Proof.Machine
end

section
/-! SUPPORT. The two passes, line by line: where a line's bytes stand and which address its label has (R122, R126). -/

namespace Sys2Proof.Machine

open Sys2Proof.Claims

theorem bytesBefore_zero (ls : List SourceLine) : bytesBefore ls 0 = 0 := rfl

theorem bytesBefore_cons_succ (l : SourceLine) (ls : List SourceLine) (k : Nat) :
    bytesBefore (l :: ls) (k + 1) = l.words.length + bytesBefore ls k := by simp [bytesBefore]

/-- Pass 2 puts the bytes of a line before those of the lines after it (R123). -/
theorem pass2_cons_eq_ok {js : Config.JmpNumericSyntax} {st : SymbolTable} {l : SourceLine} {ls : List SourceLine}
    {bytes : List Byte} (h : pass2 js st (l :: ls) = .ok bytes) :
    ∃ bs rest, assembleWords js st l.words = .ok bs ∧ pass2 js st ls = .ok rest ∧ bytes = bs ++ rest := by
  unfold pass2 at h
  split at h
  · cases h
  next bs hbs =>
  split at h
  · cases h
  next rest hrest =>
  cases h
  exact ⟨bs, rest, hbs, hrest, rfl⟩

/-- The bytes of line `k` stand in the image after those of the lines before it. -/
theorem pass2_line {js : Config.JmpNumericSyntax} {st : SymbolTable} {ls : List SourceLine} {bytes : List Byte}
    (h : pass2 js st ls = .ok bytes) {k : Nat} {l : SourceLine} (hk : ls[k]? = some l) :
    ∃ bs, assembleWords js st l.words = .ok bs ∧ (bytes.drop (bytesBefore ls k)).take bs.length = bs := by
  induction ls generalizing bytes k with
  | nil => simp at hk
  | cons l' ls ih =>
    obtain ⟨bs, rest, hbs, hrest, rfl⟩ := pass2_cons_eq_ok h
    cases k with
    | zero =>
      cases hk
      exact ⟨bs, hbs, List.take_left⟩
    | succ k =>
      rw [bytesBefore_cons_succ, ← assembleWords_length hbs, List.drop_length_add_append]
      exact ih hrest hk

/-- Pass 1 goes on from a line with the address after it, and with its label at its address if it has one, which must be new
(R121, R122). -/
theorem pass1_cons_eq_ok {addr : Byte} {st st' : SymbolTable} {l : SourceLine} {ls : List SourceLine}
    (h : pass1 addr st (l :: ls) = .ok st') :
    ∃ st1, pass1 (addr + BitVec.ofNat 8 l.words.length) st1 ls = .ok st' ∧
      (∀ n, l.label = some n → st1.lookup n = some addr) ∧ ∀ n a, st.lookup n = some a → st1.lookup n = some a := by
  unfold pass1 at h
  split at h
  · next hn => exact ⟨st, h, by simp [hn], fun _ _ => id⟩
  next n hn =>
  split at h
  · cases h
  next hnew =>
  refine ⟨_, h, by simp [hn], fun n' a ha => ?_⟩
  have hne : n' ≠ n := by
    rintro rfl
    simp [hnew] at ha
  rw [List.lookup_cons, beq_false_of_ne hne]
  exact ha

/-- Pass 1 keeps the labels it has (R121). -/
theorem pass1_keeps {addr : Byte} {st st' : SymbolTable} {ls : List SourceLine} (h : pass1 addr st ls = .ok st')
    {n : List Char} {a : Byte} (hn : st.lookup n = some a) : st'.lookup n = some a := by
  induction ls generalizing addr st with
  | nil =>
    cases h
    exact hn
  | cons l ls ih =>
    obtain ⟨st1, h1, -, keeps⟩ := pass1_cons_eq_ok h
    exact ih h1 (keeps n a hn)

/-- The label of line `k` is the address after the bytes of the lines before it. -/
theorem pass1_label {addr : Byte} {st st' : SymbolTable} {ls : List SourceLine} (h : pass1 addr st ls = .ok st')
    {k : Nat} {l : SourceLine} (hk : ls[k]? = some l) {n : List Char} (hn : l.label = some n) :
    st'.lookup n = some (addr + BitVec.ofNat 8 (bytesBefore ls k)) := by
  induction ls generalizing addr st k with
  | nil => simp at hk
  | cons l' ls ih =>
    obtain ⟨st1, h1, own, -⟩ := pass1_cons_eq_ok h
    cases k with
    | zero =>
      cases hk
      rw [bytesBefore_zero, BitVec.add_zero]
      exact pass1_keeps h1 (own n hn)
    | succ k =>
      rw [bytesBefore_cons_succ, BitVec.ofNat_add, ← BitVec.add_assoc]
      exact ih h1 hk

end Sys2Proof.Machine
end

section
/-! SUPPORT. The statements on the encoding, the datapath, the loaded image and the assembler, each from the lemmas above. -/

namespace Sys2Proof.Machine

open Sys2Proof.Claims

/-- Settles O9: encoded bytes decode to their instruction, and only they do. -/
theorem decodeAndEncodeAgree : Obligations.DecodeAndEncodeAgree := fun _ i rest =>
  ⟨eq_encode_append_of_decode, fun h => h ▸ decode_encode_append i rest⟩

/-- Settles O8: what decodes is an encoding, whose length the opcode fixes. -/
theorem opcodeFixesInstructionLength : Obligations.OpcodeFixesInstructionLength := by
  intro bytes i rest h
  cases eq_encode_append_of_decode h
  exact ⟨i.op.byte, rfl, List.length_append, (encode_length i).trans i.op.length_eq_by_byte⟩

/-- Settles O49: both check the register bytes alike, and the control word's writes are the rule's effect. -/
theorem controlWordDatapathEqualsInstructionRules : Obligations.ControlWordDatapathEqualsInstructionRules := by
  intro o b1 b2 s
  rw [runDatapath_eq]
  cases o with
  | movRegImm | movRegReg | movRegMem | addRegImm | addRegReg | addRegMem | subRegImm | subRegReg | subRegMem | incReg | decReg =>
    simp only [controlWord, controlWrites_alu, ne_eq, reduceCtorEq, not_false_eq_true]
    rfl
  | je | jne | jg | jl =>
    simp only [controlWord, controlWrites_branch]
    refine congrArg (fun c => Host.Outcome.next (s.branch c b1)) ?_
    cases hz : s.zf <;> cases hs : s.sf <;> simp [State.condE, State.condNE, State.condG, State.condL, hz, hs]
  | cmpRegImm | cmpRegReg | cmpRegMem | movMemReg | outReg | jmp | hlt => rfl

/-- Settles O54: the cell at distance `k` from address 0 reads byte `k`. -/
theorem loadedImageStandsFromAddressZero : Obligations.LoadedImageStandsFromAddressZero := by
  intro image s hl
  have reads (a : Byte) : (loadImage image s).mem.read a = (image[a.toNat]?).getD (s.mem.read a) := by
    rw [loadImage, Memory.read_writeBytes _ _ _ _ hl, BitVec.sub_zero]
  refine ⟨fun k hk => ?_, fun a ha => ?_, rfl⟩
  · rw [reads, BitVec.toNat_ofNat, Nat.mod_eq_of_lt (by omega), List.getElem?_eq_getElem hk, Option.getD_some]
  · rw [reads, List.getElem?_eq_none ha, Option.getD_none]

/-- Settles O56: the bytes are an instruction's encoding, which decodes to it. -/
theorem assembledLineDecodesToInstruction : Obligations.AssembledLineDecodesToInstruction := by
  intro js st words bytes hne h
  refine ⟨assembleWords_length h, ?_⟩
  cases words with
  | nil => exact absurd rfl hne
  | cons w ws =>
    obtain ⟨i, rfl, hi⟩ := assembleWords_eq_encode h
    exact ⟨i, by simpa using decode_encode_append i [], hi⟩

/-- Settles O57: by induction over the lines, pass 2 for their bytes and pass 1 for their labels. -/
theorem labelsAreTheAddressesOfTheirLines : Obligations.LabelsAreTheAddressesOfTheirLines := by
  intro js ls st bytes h1 h2 k l hk
  exact ⟨pass2_line h2 hk, fun n hn => by rw [pass1_label h1 hk hn, BitVec.zero_add]⟩

/-- Settles O5: the register-code decode inverts the register codes and has no other byte. -/
theorem registerCodesSelectRegisters : Obligations.RegisterCodesSelectRegisters :=
  ⟨rfl, rfl, rfl, regOfCode_regCode, regOfCode_eq_none_iff⟩

/-- Settles O6: the decoder run on each word. -/
theorem sampleWordsDecode : Obligations.SampleWordsDecode := by
  unfold Obligations.SampleWordsDecode
  decide

/-- Settles O7: outside the listed ranges stand the bytes of the 22 opcodes. -/
theorem undefinedOpcodesAreTheListedRanges : Obligations.UndefinedOpcodesAreTheListedRanges := by
  refine ⟨fun b => ⟨fun h => ?_, decodeOpcode_of_undefinedOpcode⟩, undefinedOpcodes_length⟩
  have no_opcode : ∀ o ∈ Op.all, b.toNat ≠ o.byte.toNat := fun o _ hb =>
    ne_byte_of_decodeOpcode_none h o (BitVec.eq_of_toNat_eq hb)
  simp only [Op.all, List.cons_append, List.nil_append, List.forall_mem_cons, Op.byte, BitVec.reduceToNat] at no_opcode
  rw [UndefinedOpcode]
  omega

/-- Settles O10: the step executes what it fetches. -/
theorem stepRunsDecodedInstruction : Obligations.StepRunsDecodedInstruction := by
  intro s i rest hs hd
  rw [step, if_pos (s.accepts_iff.2 hs), State.fetchInstr_of_decode hd]
  rfl

end Sys2Proof.Machine
end

section
/-! SUPPORT. An opcode and its instruction (R91, R110), and the effects of the instruction rules in the words of the statements: a
register write, a store and a fault of the register check. -/

namespace Sys2Proof.Machine

open Sys2Proof.Claims

/-- Every opcode's step is its instruction rule on the two bytes after it (R103, R106, R110). -/
theorem executes_instr (o : Op) : Executes o.byte o.instr := by
  intro s hs ho
  rw [step_of_opcode s o (s.accepts_iff.2 hs) ho, State.fetched, show s.opcodeByte = o.byte from ho]
  rfl

/-- An opcode with two operand bytes is that of a three-byte instruction (R91, R92). -/
theorem opcode3_instr {o : Op} (h : o.format.operandCount = 2) : Opcode3 o.byte o.instr :=
  ⟨fun b1 b2 => by rw [encode, Op.instr_op, Op.instr_operands, h]; rfl, executes_instr o⟩

/-- A fault changes the run state and the record alone (R54, R243). -/
theorem faultTaken_raiseFault (s : State) (k : Fault) (op : Byte) (c : Option Byte) : FaultTaken k op c s (s.raiseFault k op c) :=
  ⟨rfl, rfl, rfl, rfl, fun r => by simp, ⟨rfl, rfl⟩, fun _ => rfl, rfl⟩

/-- An instruction that is the check of a register byte, whatever follows it, faults on every byte that is no register code
(R104, R242). -/
theorem faultsOnCode_of_withReg (o : Op) {ins : Byte → Instr} (h : ∀ b s, ∃ k, exec (ins b) s = .next (withReg o b s k)) :
    FaultsOnCode o.byte ins := by
  intro b s hb
  obtain ⟨k, hk⟩ := h b s
  refine ⟨_, hk, ?_⟩
  rw [withReg_of_invalid o b s k hb]
  exact faultTaken_raiseFault s _ _ _

/-- The PC's advance is one modulo 256 (R107). -/
theorem advanced_of_pc_eq {s t : State} {n : Nat} (h : t.pc = s.pc + BitVec.ofNat 8 n) : Advanced n s t := by
  rw [Advanced, h, pc_add_toNat]

/-- A register write and the advance after it change that register and the PC alone (R19, R107). -/
theorem writesRegister_setReg (s : State) (d : Reg) {v : Byte} {x : Int} (n : Nat) (h : (v.toNat : Int) = x) :
    WritesRegister d x n s ((s.setReg d v).advance n) := by
  refine ⟨by simp [h], fun r hr => ?_, advanced_of_pc_eq (by simp), ⟨by simp, by simp⟩, fun a => by simp, by simp,
    ⟨by simp, by simp, by simp⟩⟩
  rw [State.advance_reg, State.setReg_reg_of_ne s d r v hr]

/-- A store and the advance after it change that cell and the PC alone (R20, R61, R107). -/
theorem writesCell_store (s : State) (a v : Byte) (n : Nat) : WritesCell a v n s ((s.store a v).advance n) :=
  ⟨Memory.read_write_self _ _ _, fun b hb => Memory.read_write_of_ne _ _ b _ hb, advanced_of_pc_eq rfl, fun r => by simp,
    ⟨rfl, rfl⟩, rfl, ⟨rfl, rfl, rfl⟩⟩

theorem regCode_toNat_lt (r : Reg) : (regCode r).toNat < 3 := by cases r <;> decide

/-- A `reg, [addr]` form accesses the byte it names, and only after its register check (R67, R72). -/
theorem readsOnlyItsOperand_instr {o : Op} (h : o.format = .rm) : ReadsOnlyItsOperand o.instr :=
  ⟨fun d m s => by rw [dataAccess_of_load o h, if_neg (Nat.not_le.2 (regCode_toNat_lt d))],
    fun b m s hb => by rw [dataAccess_of_load o h, if_pos hb]⟩

end Sys2Proof.Machine
end

section
/-! SUPPORT. The statements on MOV (40_data_transfer.md), each from the lemmas above. -/

namespace Sys2Proof.Machine

open Sys2Proof.Claims

/-- Settles O16: a valid code leads to the register write, any other to the fault. -/
theorem movRegImmCopiesImmediate : Obligations.MovRegImmCopiesImmediate := by
  refine ⟨opcode3_instr (o := .movRegImm) rfl, fun d i s => ⟨_, rfl, ?_⟩,
    fun i => faultsOnCode_of_withReg .movRegImm fun _ _ => ⟨_, rfl⟩⟩
  rw [withReg_regCode]
  exact writesRegister_setReg s d 3 rfl

/-- Settles O17: the checks nest in byte order, so the second one is reached with every valid first code. -/
theorem movRegRegCopiesRegister : Obligations.MovRegRegCopiesRegister := by
  refine ⟨opcode3_instr (o := .movRegReg) rfl, fun d r s => ⟨_, rfl, ?_⟩,
    fun b2 => faultsOnCode_of_withReg .movRegReg fun _ _ => ⟨_, rfl⟩,
    fun d => faultsOnCode_of_withReg .movRegReg fun b s => ⟨_, congrArg Host.Outcome.next (withReg_regCode .movRegReg d s _)⟩⟩
  rw [withReg_regCode, withReg_regCode]
  exact writesRegister_setReg s d 3 rfl

/-- Settles O18: as for an immediate, with the addressed byte, which is read only after the check. -/
theorem movRegMemLoadsByte : Obligations.MovRegMemLoadsByte := by
  refine ⟨opcode3_instr (o := .movRegMem) rfl, fun d m s => ⟨_, rfl, ?_⟩,
    fun m => faultsOnCode_of_withReg .movRegMem fun _ _ => ⟨_, rfl⟩, readsOnlyItsOperand_instr (o := .movRegMem) rfl⟩
  rw [withReg_regCode]
  exact writesRegister_setReg s d 3 rfl

/-- Settles O19: a valid code leads to the store, any other to the fault; that no other opcode changes memory is O44. -/
theorem movMemRegStoresByte : Obligations.MovMemRegStoresByte := by
  refine ⟨opcode3_instr (o := .movMemReg) rfl, fun m r s => ⟨_, rfl, ?_⟩,
    fun m => faultsOnCode_of_withReg .movMemReg fun _ _ => ⟨_, rfl⟩,
    fun m b s hb => dataAccess_store_of_invalid m hb s, fun s t ht ⟨a, ha⟩ => (onlyStoreWritesMemory s t ht a ha).1⟩
  rw [withReg_regCode]
  exact writesCell_store s m (s.reg r) 3

end Sys2Proof.Machine
end

section
/-! SUPPORT. What the instructions that compute a register's new value share: the exact value of the ALU's two functions (R150), the
register write after the checks (R104, R105), the second register check and the two-byte opcodes (R91). -/

namespace Sys2Proof.Machine

open Sys2Proof.Claims

/-- The ALU's sum is the exact one modulo 256 (R150). -/
theorem aluAdd_toNat (a b : Byte) : ((aluAdd a b).toNat : Int) = (a.toNat + b.toNat : Int) % 256 := by
  simp [aluAdd, BitVec.toNat_add]

/-- The ALU's difference is the exact one modulo 256, also where the exact one is negative (R150). -/
theorem aluSub_toNat (a b : Byte) : ((aluSub a b).toNat : Int) = (a.toNat - b.toNat : Int) % 256 := by
  rw [aluSub, BitVec.toNat_sub]
  have hb := b.isLt
  omega

/-- An opcode with one operand byte is that of a two-byte instruction (R91, R92). -/
theorem opcode2_instr {o : Op} {ins : Byte → Instr} (h : o.format.operandCount = 1) (hi : ∀ b1 b2, o.instr b1 b2 = ins b1) :
    Opcode2 o.byte ins := by
  refine ⟨fun b => ?_, ?_⟩
  · rw [← hi b 0#8, encode, Op.instr_op, Op.instr_operands, h]
    rfl
  · rw [← show o.instr = fun b _ => ins b from funext fun b1 => funext (hi b1)]
    exact executes_instr o

/-- After a valid first register byte, an instruction whose continuation is a register write and the advance changes that register and
the PC alone (R19, R104, R107). -/
theorem exec_writesRegister_of_withReg {o : Op} {i : Instr} {d : Reg} {s : State} {k : Reg → State} {v : Byte} {x : Int} {n : Nat}
    (h : exec i s = .next (withReg o (regCode d) s k)) (hk : k d = (s.setReg d v).advance n) (hv : (v.toNat : Int) = x) :
    ∃ t, exec i s = .next t ∧ WritesRegister d x n s t := by
  refine ⟨_, h, ?_⟩
  rw [withReg_regCode, hk]
  exact writesRegister_setReg s d n hv

/-- An instruction whose valid first register byte leads to the check of a second one faults on every second byte that is no register
code (R105, R242). -/
theorem faultsOnCode_of_withReg_regCode (o : Op) (d : Reg) {ins : Byte → Instr}
    (h : ∀ b s, ∃ k : Reg → Reg → State, exec (ins b) s = .next (withReg o (regCode d) s fun rd => withReg o b s (k rd))) :
    FaultsOnCode o.byte ins :=
  faultsOnCode_of_withReg o fun b s =>
    let ⟨k, hk⟩ := h b s
    ⟨k d, by rw [hk, withReg_regCode]⟩

end Sys2Proof.Machine
end

section
/-! SUPPORT. The statements on ADD, SUB, INC and DEC (41_arithmetic.md), each from the lemmas above. -/

namespace Sys2Proof.Machine

open Sys2Proof.Claims

/-- Settles O20: a valid code leads to the write of the sum, any other to the fault. -/
theorem addRegImmAddsModulo256 : Obligations.AddRegImmAddsModulo256 :=
  ⟨opcode3_instr (o := .addRegImm) rfl,
    fun d i s => exec_writesRegister_of_withReg rfl rfl (aluAdd_toNat (s.reg d) i),
    fun _ => faultsOnCode_of_withReg .addRegImm fun _ _ => ⟨_, rfl⟩⟩

/-- Settles O21: both registers are read before the write, and the second check is reached with every valid first code. -/
theorem addRegRegAddsModulo256 : Obligations.AddRegRegAddsModulo256 :=
  ⟨opcode3_instr (o := .addRegReg) rfl,
    fun d r s => exec_writesRegister_of_withReg rfl (withReg_regCode _ r s _) (aluAdd_toNat (s.reg d) (s.reg r)),
    fun _ => faultsOnCode_of_withReg .addRegReg fun _ _ => ⟨_, rfl⟩,
    fun d => faultsOnCode_of_withReg_regCode .addRegReg d fun _ _ => ⟨_, rfl⟩⟩

/-- Settles O22: as for an immediate, with the addressed byte, which is read only after the check. -/
theorem addRegMemAddsModulo256 : Obligations.AddRegMemAddsModulo256 :=
  ⟨opcode3_instr (o := .addRegMem) rfl,
    fun d m s => exec_writesRegister_of_withReg rfl rfl (aluAdd_toNat (s.reg d) (s.mem.read m)),
    fun _ => faultsOnCode_of_withReg .addRegMem fun _ _ => ⟨_, rfl⟩,
    readsOnlyItsOperand_instr (o := .addRegMem) rfl⟩

/-- Settles O23: a valid code leads to the write of the difference, any other to the fault. -/
theorem subRegImmSubtractsModulo256 : Obligations.SubRegImmSubtractsModulo256 :=
  ⟨opcode3_instr (o := .subRegImm) rfl,
    fun d i s => exec_writesRegister_of_withReg rfl rfl (aluSub_toNat (s.reg d) i),
    fun _ => faultsOnCode_of_withReg .subRegImm fun _ _ => ⟨_, rfl⟩⟩

/-- Settles O24: both registers are read before the write, and the second check is reached with every valid first code. -/
theorem subRegRegSubtractsModulo256 : Obligations.SubRegRegSubtractsModulo256 :=
  ⟨opcode3_instr (o := .subRegReg) rfl,
    fun d r s => exec_writesRegister_of_withReg rfl (withReg_regCode _ r s _) (aluSub_toNat (s.reg d) (s.reg r)),
    fun _ => faultsOnCode_of_withReg .subRegReg fun _ _ => ⟨_, rfl⟩,
    fun d => faultsOnCode_of_withReg_regCode .subRegReg d fun _ _ => ⟨_, rfl⟩⟩

/-- Settles O25: as for an immediate, with the addressed byte, which is read only after the check. -/
theorem subRegMemSubtractsModulo256 : Obligations.SubRegMemSubtractsModulo256 :=
  ⟨opcode3_instr (o := .subRegMem) rfl,
    fun d m s => exec_writesRegister_of_withReg rfl rfl (aluSub_toNat (s.reg d) (s.mem.read m)),
    fun _ => faultsOnCode_of_withReg .subRegMem fun _ _ => ⟨_, rfl⟩,
    readsOnlyItsOperand_instr (o := .subRegMem) rfl⟩

/-- Settles O26: the sum with the byte 1. -/
theorem incRegAddsOneModulo256 : Obligations.IncRegAddsOneModulo256 :=
  ⟨opcode2_instr (o := .incReg) rfl fun _ _ => rfl,
    fun d s => exec_writesRegister_of_withReg rfl rfl (aluAdd_toNat (s.reg d) 1#8),
    faultsOnCode_of_withReg .incReg fun _ _ => ⟨_, rfl⟩⟩

/-- Settles O27: the difference with the byte 1, so 0x00 wraps to 0xFF. -/
theorem decRegSubtractsOneModulo256 : Obligations.DecRegSubtractsOneModulo256 :=
  ⟨opcode2_instr (o := .decReg) rfl fun _ _ => rfl,
    fun d s => exec_writesRegister_of_withReg rfl rfl (aluSub_toNat (s.reg d) 1#8),
    faultsOnCode_of_withReg .decReg fun _ _ => ⟨_, rfl⟩⟩

end Sys2Proof.Machine
end

section
/-! SUPPORT. The output stream: what OUT does to it, which byte a step sends to the output port and so appends (R56 (b), R180, R181),
and that no step reads what stands in it. -/

namespace Sys2Proof.Machine

open Sys2Proof.Claims

/-- An output and the advance after it append that byte and move the PC alone (R21, R107). -/
theorem outputs_outPush (s : State) (v : Byte) (n : Nat) : Outputs v n s ((s.outPush v).advance n) :=
  ⟨rfl, advanced_of_pc_eq rfl, fun r => by simp, ⟨rfl, rfl⟩, fun _ => rfl, ⟨rfl, rfl, rfl⟩⟩

/-! The byte a step sends. -/

/-- A step sends nothing where OUT's opcode byte does not stand at the PC (R181). -/
theorem stepOutput_of_ne_outReg {s : State} (h : s.opcodeByte ≠ Op.outReg.byte) : stepOutput s = none := by
  simp [stepOutput, h]

/-- An accepted OUT sends the register its code selects, and nothing when it selects none (R104, R180). -/
theorem stepOutput_of_outReg {s : State} (ha : s.accepts = true) (ho : s.opcodeByte = Op.outReg.byte) :
    stepOutput s = (regOfCode s.operand1).map s.reg := by
  simp [stepOutput, ha, ho]

/-- An accepted step sends a byte exactly for OUT with a valid register code, and then it sends that register (R181). -/
theorem stepOutput_eq_some_iff {s : State} (ha : s.accepts = true) (v : Byte) :
    stepOutput s = some v ↔ s.opcodeByte = Op.outReg.byte ∧ ∃ r, s.operand1 = regCode r ∧ v = s.reg r := by
  by_cases ho : s.opcodeByte = Op.outReg.byte
  · simp only [stepOutput_of_outReg ha ho, Option.map_eq_some_iff, regOfCode_eq_some_iff, ho, true_and, eq_comm (a := v)]
  · simp [stepOutput_of_ne_outReg ho, ho]

/-- A step whose register check fails sends nothing: OUT's check is that of its one register byte (R104, R105). -/
theorem stepOutput_of_failsCheckOn {s : State} {o : Op} {c : Byte} (ha : s.accepts = true) (ho : s.opcodeByte = o.byte)
    (hc : FailsCheckOn o c s) : stepOutput s = none := by
  by_cases h : o = .outReg
  · subst h
    have hcode : 3 ≤ s.operand1.toNat := by
      obtain ⟨h3, ⟨-, rfl⟩ | ⟨hf, -⟩ | ⟨hf, -⟩⟩ := hc
      · exact h3
      · cases hf
      · cases hf
    rw [stepOutput_of_outReg ha ho, (regOfCode_eq_none_iff _).2 hcode, Option.map_none]
  · exact stepOutput_of_ne_outReg fun hb => h (Op.byte_injective (ho.symm.trans hb))

/-- An accepted step appends to the output stream exactly the byte it sends (R21, R50, R181). -/
theorem step_out (s : State) (ha : s.accepts = true) : ∃ t, step s = .next t ∧ t.out = s.out ++ (stepOutput s).toList := by
  have silent {t : State} (hs : stepOutput s = none) (ht : t.out = s.out) : t.out = s.out ++ (stepOutput s).toList := by
    simp [hs, ht]
  have other {ops : List Op} (hops : ∀ o ∈ ops, o.byte ≠ Op.outReg.byte) (o : Op) (hm : o ∈ ops) (ho : s.opcodeByte = o.byte) :
      stepOutput s = none := stepOutput_of_ne_outReg (ho ▸ hops o hm)
  refine step_induct _ s ha ?unknown ?fault ?register ?store ?output ?flags ?branch ?halt
  case unknown => exact fun hd => silent (stepOutput_of_ne_outReg (ne_byte_of_decodeOpcode_none hd .outReg)) rfl
  case fault => exact fun o c ho hc => silent (stepOutput_of_failsCheckOn ha ho hc) rfl
  case register => exact fun o hm ho _ d v => silent (other (by decide) o hm ho) (by simp)
  case store => exact fun r ho _ => silent (stepOutput_of_ne_outReg (ho ▸ by decide)) rfl
  case output =>
    intro r ho hr
    rw [(stepOutput_eq_some_iff ha _).2 ⟨ho, r, hr, rfl⟩]
    rfl
  case flags => exact fun o hm ho _ a b => silent (other (by decide) o hm ho) rfl
  case branch => exact fun o hm ho c => silent (other (by decide) o hm ho) (by cases c <;> rfl)
  case halt => exact fun ho => silent (stepOutput_of_ne_outReg (ho ▸ by decide)) rfl

/-! The stream is not read. -/

/-- The state with the bytes `older` put before its output stream. -/
def State.prependOut (s : State) (older : List Byte) : State := { s with out := older ++ s.out }

theorem State.prependOut_reg (s : State) (older : List Byte) (r : Reg) : (s.prependOut older).reg r = s.reg r := by
  cases r <;> rfl

theorem State.prependOut_setReg (s : State) (older : List Byte) (r : Reg) (v : Byte) :
    (s.prependOut older).setReg r v = (s.setReg r v).prependOut older := by
  cases r <;> rfl

/-- What a control word writes does not depend on the output stream, and an appended byte comes after all of it (R111). -/
theorem controlWrites_prependOut (c : Control) (d q : Reg) (b1 b2 : Byte) (s : State) (older : List Byte) :
    controlWrites c d q b1 b2 (s.prependOut older) = (controlWrites c d q b1 b2 s).prependOut older := by
  have appended (r : Byte) : (if c.fn = .output then older ++ s.out ++ [r] else older ++ s.out) =
      older ++ if c.fn = .output then s.out ++ [r] else s.out := by
    split <;> simp
  have written (r : Byte) : (if c.regWrite then (s.prependOut older).setReg d r else s.prependOut older) =
      (if c.regWrite then s.setReg d r else s).prependOut older := by
    rw [State.prependOut_setReg, apply_ite (State.prependOut · older)]
  simp only [controlWrites, State.prependOut_reg, written]
  simp only [State.prependOut, appended]
  rfl

/-- The register check does not look at the output stream, and its fault leaves the stream alone (R104). -/
theorem checkReg_prependOut (o : Op) (b : Option Byte) (s : State) (older : List Byte) {k k' : Reg → State}
    (h : ∀ r, k' r = (k r).prependOut older) :
    checkReg o b (s.prependOut older) k' = (checkReg o b s k).prependOut older := by
  cases b with
  | none => exact h .r0
  | some b =>
    rw [checkReg, checkReg]
    rcases regOfCode_cases b with ⟨r, rfl, -⟩ | ⟨hb, -⟩
    · rw [withReg_regCode, withReg_regCode, h]
    · rw [withReg_of_invalid _ _ _ _ hb, withReg_of_invalid _ _ _ _ hb]
      rfl

/-- An instruction does not read the output stream: the rules are the datapath (R111), which does not. -/
theorem exec_prependOut (o : Op) (b1 b2 : Byte) (s : State) (older : List Byte) :
    ∃ t, exec (o.instr b1 b2) s = .next t ∧ exec (o.instr b1 b2) (s.prependOut older) = .next (t.prependOut older) := by
  refine ⟨_, controlWordDatapathEqualsInstructionRules o b1 b2 s, ?_⟩
  rw [controlWordDatapathEqualsInstructionRules, runDatapath_eq, runDatapath_eq]
  exact congrArg Host.Outcome.next <| checkReg_prependOut _ _ _ _ fun d => checkReg_prependOut _ _ _ _ fun q =>
    controlWrites_prependOut _ d q b1 b2 s older

/-- No step reads the output stream: whatever stands in it before, the step does the same (R50, R181). -/
theorem step_prependOut {s t : State} (older : List Byte) (ht : step s = .next t) :
    step (s.prependOut older) = .next (t.prependOut older) := by
  rcases step_cases s with ⟨ha, hs⟩ | ⟨ha, hd, hs⟩ | ⟨o, ha, ho, hs⟩
  · cases hs.symm.trans ht
    exact step_of_not_accepts (s := s.prependOut older) ha
  · cases hs.symm.trans ht
    exact step_of_undefined (s := s.prependOut older) ha hd
  · obtain ⟨u, hu, hu'⟩ := exec_prependOut o s.operand1 s.operand2 s.fetched older
    cases (hs.trans hu).symm.trans ht
    exact (step_of_opcode (s.prependOut older) o ha ho).trans hu'

end Sys2Proof.Machine
end

section
/-! SUPPORT. The statements on OUT (42_output.md), each from the lemmas above. -/

namespace Sys2Proof.Machine

/-- Settles O28: a valid code leads to the output, any other to the fault, which appends nothing. -/
theorem outRegAppendsRegister : Obligations.OutRegAppendsRegister := by
  refine ⟨opcode2_instr (o := .outReg) rfl fun _ _ => rfl, fun d s => ⟨_, rfl, ?_⟩,
    faultsOnCode_of_withReg .outReg fun _ _ => ⟨_, rfl⟩⟩
  rw [withReg_regCode]
  exact outputs_outPush s (s.reg d) 2

/-- Settles O45: the step appends what it sends, and it does the same with any bytes before the stream. -/
theorem outputStreamIsAppendOnlyAndNeverRead : Obligations.OutputStreamIsAppendOnlyAndNeverRead := by
  intro s hs
  have ha := s.accepts_iff.2 hs
  obtain ⟨t, ht, hout⟩ := step_out s ha
  exact ⟨t, ht, hout, stepOutput_eq_some_iff ha, fun older => step_prependOut older ht⟩

end Sys2Proof.Machine
end

section
/-! SUPPORT. Jumps: where a branch goes in the words of the statements, and when a jump is taken (R190, R196 to R200). -/

namespace Sys2Proof.Machine

open Sys2Proof.Claims

/-- A branch moves the PC alone: to its target where its condition holds, else to the next instruction (R107, R196). -/
theorem goesTo_branch {c : Bool} {p : Prop} [Decidable p] (h : c = true ↔ p) (s : State) (x : Byte) :
    GoesTo (if p then x.toNat else (s.pc.toNat + 2) % 256) s (s.branch c x) := by
  rw [State.branch_eq]
  refine ⟨?_, fun r => by cases r <;> rfl, ⟨rfl, rfl⟩, fun _ => rfl, rfl, ⟨rfl, rfl, rfl⟩⟩
  simp only [h]
  split
  · rfl
  · exact pc_add_toNat s.pc 2

theorem State.condNE_iff (s : State) : s.condNE = true ↔ s.zf = false := by simp [State.condNE]

theorem State.condG_iff (s : State) : s.condG = true ↔ s.zf = false ∧ s.sf = false := by simp [State.condG]

section
variable {j : Byte → Instr} {t : State} {c : Bool} (h : ∀ x, exec (j x) t = .next (t.branch c x))
include h

/-- A jump is taken exactly where its condition holds: where it fails, the jump goes to one address whatever its target (R196). -/
theorem taken_iff : Taken j t ↔ c = true := by
  constructor
  · intro ht
    by_contra hc
    have hpc := congrArg State.pc (Host.Outcome.next.inj ((h (t.pc + 1#8)).symm.trans (ht _)))
    simp [hc] at hpc
  · rintro rfl
    exact h

/-- A jump is not taken exactly where its condition fails (R196). -/
theorem notTaken_iff : NotTaken j t ↔ ¬c = true := by
  constructor
  · rintro ht rfl
    have hpc := congrArg State.pc (Host.Outcome.next.inj ((h (t.pc + 1#8)).symm.trans (ht _)))
    simp at hpc
  · intro hc x
    rw [h, State.branch_eq, if_neg hc]

/-- A jump is taken or not as its condition says, in whatever words (R196). -/
theorem taken_notTaken_iff {p : Prop} (hp : c = true ↔ p) : (Taken j t ↔ p) ∧ (NotTaken j t ↔ ¬p) :=
  ⟨(taken_iff h).trans hp, (notTaken_iff h).trans (not_congr hp)⟩

end

end Sys2Proof.Machine
end

section
/-! SUPPORT. CMP: all three forms write the flags of one wrapped difference (R191, R193 to R195), what that difference says of the
bytes (R192), and which jumps follow it (R201). -/

namespace Sys2Proof.Machine

open Sys2Proof.Claims

/-! The flags. -/

/-- The ALU's difference is the wrapped one of the statements (R150, R191). -/
theorem aluSub_toNat_eq_wrappedDifference (a b : Byte) : (aluSub a b).toNat = wrappedDifference a b := by
  rw [wrappedDifference, ← aluSub_toNat, Int.toNat_natCast]

theorem State.flagUpdate_zf_iff (s : State) (a b : Byte) : (s.flagUpdate a b).zf = true ↔ wrappedDifference a b = 0 := by
  rw [State.flagUpdate_zf, beq_iff_eq, ← aluSub_toNat_eq_wrappedDifference]
  exact BitVec.toNat_inj.symm

theorem State.flagUpdate_sf_iff (s : State) (a b : Byte) : (s.flagUpdate a b).sf = true ↔ 0x80 ≤ wrappedDifference a b := by
  have hmsb : (s.flagUpdate a b).sf = (aluSub a b).msb := (BitVec.msb_eq_getLsbD_last _).symm
  rw [hmsb, BitVec.msb_eq_decide, decide_eq_true_iff, aluSub_toNat_eq_wrappedDifference]

/-- The flag update and the advance after it change the flags and the PC alone (R107, R191). -/
theorem writesFlags_flagUpdate (s : State) (a b : Byte) (n : Nat) : WritesFlags a b n s ((s.flagUpdate a b).advance n) := by
  refine ⟨?zero, ?sign, advanced_of_pc_eq rfl, fun r => by simp, fun _ => rfl, rfl, ⟨rfl, rfl, rfl⟩⟩
  case zero => exact Bool.eq_iff_iff.2 ((s.flagUpdate_zf_iff a b).trans decide_eq_true_iff.symm)
  case sign => exact congrArg (Nat.testBit · 7) (aluSub_toNat_eq_wrappedDifference a b)

/-- Every form of CMP is the flag update on its two bytes and the advance (R193 to R195). -/
theorem exec_of_compares {i : Instr} {s : State} {a b : Byte} (h : Compares i s a b) :
    exec i s = .next ((s.flagUpdate a b).advance 3) := by
  obtain ⟨d, rfl, rfl⟩ | ⟨d, r, rfl, rfl, rfl⟩ | ⟨d, m, rfl, rfl, rfl⟩ := h
  · exact congrArg Host.Outcome.next (withReg_regCode .cmpRegImm d s _)
  · exact congrArg Host.Outcome.next ((withReg_regCode .cmpRegReg d s _).trans (withReg_regCode .cmpRegReg r s _))
  · exact congrArg Host.Outcome.next (withReg_regCode .cmpRegMem d s _)

theorem exec_writesFlags_of_compares {i : Instr} {s : State} {a b : Byte} (h : Compares i s a b) :
    ∃ t, exec i s = .next t ∧ WritesFlags a b 3 s t :=
  ⟨_, exec_of_compares h, writesFlags_flagUpdate s a b 3⟩

/-! The wrapped difference. -/

theorem wrappedDifference_cast (a b : Byte) : (wrappedDifference a b : Int) = (a.toNat - b.toNat : Int) % 256 :=
  Int.toNat_of_nonneg (Int.emod_nonneg _ (by decide))

/-- The signed difference wraps to the same byte as the unsigned one (R201). -/
theorem wrappedDifference_cast_toInt (a b : Byte) : (wrappedDifference a b : Int) = (a.toInt - b.toInt) % 256 := by
  rw [wrappedDifference_cast, BitVec.toInt_eq_toNat_cond, BitVec.toInt_eq_toNat_cond]
  split <;> split <;> omega

theorem wrappedDifference_eq_zero_iff (a b : Byte) : wrappedDifference a b = 0 ↔ a = b := by
  have hw := wrappedDifference_cast a b
  rw [← BitVec.toNat_inj]
  omega

/-! The jumps after CMP. -/

/-- `t` has the flags of a CMP of `a` and `b` (R191). -/
def ComparedFlags (a b : Byte) (t : State) : Prop :=
  (t.zf = true ↔ wrappedDifference a b = 0) ∧ (t.sf = true ↔ 0x80 ≤ wrappedDifference a b)

theorem comparedFlags_flagUpdate (s : State) (a b : Byte) : ComparedFlags a b ((s.flagUpdate a b).advance 3) :=
  ⟨s.flagUpdate_zf_iff a b, s.flagUpdate_sf_iff a b⟩

section
variable {a b : Byte} {t : State} (h : ComparedFlags a b t)
include h

/-- JE follows a zero difference (R197). -/
theorem ComparedFlags.je_iff : (Taken .je t ↔ wrappedDifference a b = 0) ∧ (NotTaken .je t ↔ ¬wrappedDifference a b = 0) :=
  taken_notTaken_iff (c := t.condE) (fun _ => rfl) h.1

/-- JNE follows every other difference (R198). -/
theorem ComparedFlags.jne_iff :
    (Taken .jne t ↔ wrappedDifference a b ≠ 0) ∧ (NotTaken .jne t ↔ ¬wrappedDifference a b ≠ 0) := by
  refine taken_notTaken_iff (c := t.condNE) (fun _ => rfl) ?_
  rw [t.condNE_iff, ← Bool.not_eq_true, h.1]

/-- JG follows a difference that is not zero and has bit 7 clear (R199). -/
theorem ComparedFlags.jg_iff :
    (Taken .jg t ↔ wrappedDifference a b ≠ 0 ∧ ¬0x80 ≤ wrappedDifference a b) ∧
      (NotTaken .jg t ↔ ¬(wrappedDifference a b ≠ 0 ∧ ¬0x80 ≤ wrappedDifference a b)) := by
  refine taken_notTaken_iff (c := t.condG) (fun _ => rfl) ?_
  rw [t.condG_iff, ← Bool.not_eq_true, ← Bool.not_eq_true, h.1, h.2]

/-- JL follows a difference that has bit 7 set (R200). -/
theorem ComparedFlags.jl_iff :
    (Taken .jl t ↔ 0x80 ≤ wrappedDifference a b) ∧ (NotTaken .jl t ↔ ¬0x80 ≤ wrappedDifference a b) :=
  taken_notTaken_iff (c := t.condL) (fun _ => rfl) h.2

/-- The jumps give the order that the sign of `x` says exactly when `x`, a difference that wraps as that of the bytes does, is itself
the signed reading of the wrapped byte (R201). It serves both orders, each with its own difference. -/
theorem ComparedFlags.jumpsGive_iff {x : Int} {less greater : Prop} (hx : (wrappedDifference a b : Int) = x % 256)
    (hlo : -256 < x) (hhi : x < 256) (hl : less ↔ x < 0) (hg : greater ↔ 0 < x) :
    JumpsGive less greater t ↔ -128 ≤ x ∧ x ≤ 127 := by
  rw [JumpsGive, h.jl_iff.1, h.jg_iff.1, hl, hg]
  omega

theorem ComparedFlags.jumpsGive_unsigned_iff : JumpsGive (a.toNat < b.toNat) (b.toNat < a.toNat) t ↔
    -128 ≤ (a.toNat : Int) - b.toNat ∧ (a.toNat : Int) - b.toNat ≤ 127 :=
  h.jumpsGive_iff (wrappedDifference_cast a b) (by omega) (by omega) (by omega) (by omega)

theorem ComparedFlags.jumpsGive_signed_iff : JumpsGive (a.toInt < b.toInt) (b.toInt < a.toInt) t ↔
    -128 ≤ a.toInt - b.toInt ∧ a.toInt - b.toInt ≤ 127 := by
  have ha := And.intro a.le_toInt a.toInt_lt
  have hb := And.intro b.le_toInt b.toInt_lt
  exact h.jumpsGive_iff (wrappedDifference_cast_toInt a b) (by omega) (by omega) (by omega) (by omega)

/-- Exactly one of JE, JG and JL is taken, and JNE when JE is not (R201). -/
theorem ComparedFlags.jumps_taken :
    if a = b then Taken .je t ∧ NotTaken .jne t ∧ NotTaken .jg t ∧ NotTaken .jl t
    else if wrappedDifference a b ≤ 0x7F then NotTaken .je t ∧ Taken .jne t ∧ Taken .jg t ∧ NotTaken .jl t
    else NotTaken .je t ∧ Taken .jne t ∧ NotTaken .jg t ∧ Taken .jl t := by
  simp only [h.je_iff, h.jne_iff, h.jg_iff, h.jl_iff, ← wrappedDifference_eq_zero_iff a b]
  split
  · omega
  · split <;> omega

end

end Sys2Proof.Machine
end

section
/-! SUPPORT. The statements on JMP, CMP and the conditional jumps (43_compare_branch.md), each from the lemmas above. -/

namespace Sys2Proof.Machine

open Sys2Proof.Claims

/-- Settles O39: both orders by the one lemma on a difference that wraps to the compared byte; the two differences are equal when the
top bits agree and 256 apart when they do not. -/
theorem conditionalJumpsAfterCompare : Obligations.ConditionalJumpsAfterCompare := by
  intro i s a b hc
  have hf := comparedFlags_flagUpdate s a b
  refine ⟨_, exec_of_compares hc, hf.jumps_taken, hf.jumpsGive_unsigned_iff, hf.jumpsGive_signed_iff, ?_⟩
  rw [hf.jumpsGive_unsigned_iff, hf.jumpsGive_signed_iff, BitVec.toInt_eq_toNat_cond, BitVec.toInt_eq_toNat_cond]
  split <;> split <;> omega

/-- Settles O38: what the wrapped difference says of the bytes and of the exact difference. -/
theorem compareFlagsMeanEqualityAndWrappedSign : Obligations.CompareFlagsMeanEqualityAndWrappedSign := by
  intro i s a b hc
  obtain ⟨hz, hs⟩ := comparedFlags_flagUpdate s a b
  refine ⟨_, exec_of_compares hc, hz.trans (wrappedDifference_eq_zero_iff a b), hs, s.flagUpdate_not_both a b, ?_⟩
  have hw := wrappedDifference_cast a b
  rw [hs]
  omega

/-- Settles O29: the branch whose condition always holds. -/
theorem jmpGoesToTarget : Obligations.JmpGoesToTarget :=
  ⟨opcode2_instr (o := .jmp) rfl fun _ _ => rfl, fun x s => ⟨_, rfl, goesTo_branch (c := true) (iff_true_intro rfl) s x⟩⟩

/-- Settles O30: a valid code leads to the flag update, any other to the fault. -/
theorem cmpRegImmWritesFlags : Obligations.CmpRegImmWritesFlags :=
  ⟨opcode3_instr (o := .cmpRegImm) rfl, fun d _ _ => exec_writesFlags_of_compares (.inl ⟨d, rfl, rfl⟩),
    fun _ => faultsOnCode_of_withReg .cmpRegImm fun _ _ => ⟨_, rfl⟩⟩

/-- Settles O31: the second check is reached with every valid first code. -/
theorem cmpRegRegWritesFlags : Obligations.CmpRegRegWritesFlags :=
  ⟨opcode3_instr (o := .cmpRegReg) rfl, fun d r _ => exec_writesFlags_of_compares (.inr (.inl ⟨d, r, rfl, rfl, rfl⟩)),
    fun _ => faultsOnCode_of_withReg .cmpRegReg fun _ _ => ⟨_, rfl⟩,
    fun d => faultsOnCode_of_withReg_regCode .cmpRegReg d fun _ _ => ⟨_, rfl⟩⟩

/-- Settles O32: as for an immediate, with the addressed byte, which is read only after the check. -/
theorem cmpRegMemWritesFlags : Obligations.CmpRegMemWritesFlags :=
  ⟨opcode3_instr (o := .cmpRegMem) rfl, fun d m _ => exec_writesFlags_of_compares (.inr (.inr ⟨d, m, rfl, rfl, rfl⟩)),
    fun _ => faultsOnCode_of_withReg .cmpRegMem fun _ _ => ⟨_, rfl⟩, readsOnlyItsOperand_instr (o := .cmpRegMem) rfl⟩

/-- Settles O33: the branch on ZF. -/
theorem jeJumpsWhenZeroFlagSet : Obligations.JeJumpsWhenZeroFlagSet :=
  ⟨opcode2_instr (o := .je) rfl fun _ _ => rfl, fun x s => ⟨_, rfl, goesTo_branch (c := s.condE) Iff.rfl s x⟩⟩

/-- Settles O34: the branch on ZF's negation. -/
theorem jneJumpsWhenZeroFlagClear : Obligations.JneJumpsWhenZeroFlagClear :=
  ⟨opcode2_instr (o := .jne) rfl fun _ _ => rfl,
    fun x s => ⟨_, rfl, goesTo_branch s.condNE_iff s x⟩⟩

/-- Settles O35: the branch on both flags. -/
theorem jgJumpsWhenBothFlagsClear : Obligations.JgJumpsWhenBothFlagsClear :=
  ⟨opcode2_instr (o := .jg) rfl fun _ _ => rfl, fun x s => ⟨_, rfl, goesTo_branch s.condG_iff s x⟩⟩

/-- Settles O36: the branch on SF alone. -/
theorem jlJumpsWhenSignFlagSet : Obligations.JlJumpsWhenSignFlagSet :=
  ⟨opcode2_instr (o := .jl) rfl fun _ _ => rfl, fun x s => ⟨_, rfl, goesTo_branch (c := s.condL) Iff.rfl s x⟩⟩

end Sys2Proof.Machine
end

section
/-! SUPPORT. HLT's effect, and the statement on it (44_halt.md). -/

namespace Sys2Proof.Machine

open Sys2Proof.Claims

/-- HLT sets the run state of the fetched state (R230). -/
theorem exec_hlt (s : State) : exec .hlt s = .next { s with run := .halted } := rfl

/-- The run state is no register: another one leaves every register's value (R31, R52). -/
theorem sameRegs_setRun (s : State) (r : RunState) : SameRegs s { s with run := r } := fun d => by cases d <;> rfl

/-- Settles O37: HLT writes the run state alone, so every other item is as the fetch left it. -/
theorem hltHaltsAndKeepsPc : Obligations.HltHaltsAndKeepsPc :=
  ⟨⟨rfl, executes_instr .hlt⟩,
    fun s => ⟨_, exec_hlt s, rfl, rfl, rfl, rfl, sameRegs_setRun s .halted, ⟨rfl, rfl⟩, fun _ => rfl, rfl⟩⟩

end Sys2Proof.Machine
end

section
/-! SUPPORT. The checks of a step that can fail: an undefined opcode faults before any other check, and a defined one is checked by the
search for the first invalid register byte of its format (R105, R241, R242, R247). -/

namespace Sys2Proof

/-- The format of an opcode by its byte, as far as it says which register bytes are checked (R91, R96). -/
theorem Op.byte_mem_iff_format (o : Op) :
    (o.byte ∈ [0x10#8, 0x12#8, 0x20#8, 0x22#8, 0x30#8, 0x32#8, 0x40#8, 0x41#8, 0x50#8, 0x70#8, 0x72#8] ↔
      o.format ∈ [.r, .ri, .rm]) ∧
    (o.byte ∈ [0x11#8, 0x21#8, 0x31#8, 0x71#8] ↔ o.format = .rr) ∧ (o.byte = 0x13#8 ↔ o.format = .mr) := by
  cases o <;> decide

end Sys2Proof

namespace Sys2Proof.Machine

open Sys2Proof.Claims

/-- The words for the state after the fetch are the model's fetch (R102). -/
theorem fetched_opcodeByte (s : State) : Fetched s (s.mem.read s.pc) = s.fetched := rfl

/-- An undefined opcode's step takes its fault from the fetched state (R106, R241, R243). -/
theorem faultTaken_unknownOpcode (s : State) :
    FaultTaken .unknownOpcode (s.mem.read s.pc) none (Fetched s (s.mem.read s.pc)) s.unknownOpcode := by
  rw [s.unknownOpcode_eq, fetched_opcodeByte]
  exact faultTaken_raiseFault s.fetched _ _ _

/-! The register check of a defined opcode. -/

/-- The step of a defined opcode runs the datapath from the fetched state (R110, R111). -/
theorem step_eq_runDatapath {s : State} {o : Op} (ha : s.accepts = true) (ho : s.opcodeByte = o.byte) :
    step s = .next (runDatapath o s.operand1 s.operand2 s.fetched) :=
  (step_of_opcode s o ha ho).trans (controlWordDatapathEqualsInstructionRules o _ _ _)

section
variable {o : Op} {b1 b2 : Byte} (s : State)

/-- An invalid register byte faults, and the record names the first one (R105, R242). -/
theorem runDatapath_of_invalid {c : Byte} (h : firstInvalid (registerBytes o.format b1 b2) = some c) :
    runDatapath o b1 b2 s = s.raiseFault .invalidRegisterCode o.byte (some c) := by
  rw [runDatapath, h]

/-- With every register byte valid only HLT's control word writes the run state (R111, R230). -/
theorem runDatapath_run_of_valid (h : firstInvalid (registerBytes o.format b1 b2) = none) :
    (runDatapath o b1 b2 s).run = if (controlWord o).fn = .halt then .halted else s.run := by
  rw [runDatapath, h]

end

/-- What the check of one register byte keeps is a byte of 0x03 or above (R95, R104). -/
theorem filter_isNone_regOfCode (b : Byte) :
    (some b).filter (fun b => (regOfCode b).isNone) = if 3 ≤ b.toNat then some b else none := by
  simp only [Option.filter, Option.isNone_iff_eq_none, regOfCode_eq_none_iff]

/-- The offending byte of a defined opcode is the first invalid register byte of its format (R105). -/
theorem offendingByte_of_opcode {s : State} {o : Op} (ho : s.opcodeByte = o.byte) :
    OffendingByte s = firstInvalid (registerBytes o.format s.operand1 s.operand2) := by
  change s.mem.read s.pc = o.byte at ho
  obtain ⟨hone, htwo, hstore⟩ := o.byte_mem_iff_format
  simp only [OffendingByte, ho, hone, htwo, hstore]
  cases o.format <;> simp [firstInvalid, registerBytes, filter_isNone_regOfCode, State.operand1, State.operand2]

/-- An undefined opcode has no register bytes, so none offends (R106, R247). -/
theorem offendingByte_of_undefined {s : State} (hd : decodeOpcode s.opcodeByte = none) : OffendingByte s = none := by
  have not_byte : ∀ o : Op, s.mem.read s.pc ≠ o.byte := ne_byte_of_decodeOpcode_none hd
  have not_listed (ops : List Op) : s.mem.read s.pc ∉ ops.map Op.byte := fun h =>
    let ⟨o, _, ho⟩ := List.mem_map.1 h
    not_byte o ho.symm
  exact (if_neg (not_listed [.movRegImm, .movRegMem, .addRegImm, .addRegMem, .subRegImm, .subRegMem, .incReg, .decReg, .outReg,
    .cmpRegImm, .cmpRegMem])).trans <|
      (if_neg (not_listed [.movRegReg, .addRegReg, .subRegReg, .cmpRegReg])).trans (if_neg (not_byte .movMemReg))

end Sys2Proof.Machine
end

section
/-! SUPPORT. The statements on faults (60_exceptions.md), each from the lemmas above. -/

namespace Sys2Proof.Machine

open Sys2Proof.Claims

/-- Settles O40: the step of an undefined opcode is its fault, taken from the fetched state. -/
theorem undefinedOpcodeFaults : Obligations.UndefinedOpcodeFaults := by
  intro s hs hu
  have ha := s.accepts_iff.2 hs
  have hd := decodeOpcode_of_undefinedOpcode hu
  have ht := step_of_undefined ha hd
  refine ⟨_, ht, ?_, stepAccesses_of_undefined ha hd, faultTaken_unknownOpcode s⟩
  rw [hostStep_of_next ht, if_pos ha, outcomeAfter_of_faulted rfl rfl]

/-- Settles O41: an undefined opcode has no offending byte, and the step of a defined one faults on the first invalid register byte of
its format or leaves the core running or halted. -/
theorem firstFailingCheckDecidesFault : Obligations.FirstFailingCheckDecidesFault := by
  intro s hs
  have undefined_iff := undefinedOpcodesAreTheListedRanges.1 s.opcodeByte
  rcases step_cases s with ⟨hr, -⟩ | ⟨-, hd, ht⟩ | ⟨o, ha, ho, -⟩
  · rw [s.accepts_iff.2 hs] at hr
    cases hr
  · have hb := offendingByte_of_undefined hd
    exact ⟨_, ht, iff_of_true rfl (.inl (undefined_iff.1 hd)), fun _ => ⟨hb, faultTaken_unknownOpcode s⟩, by simp [hb]⟩
  · have hu : ¬UndefinedOpcode s.opcodeByte := fun hu => ne_byte_of_decodeOpcode_none (undefined_iff.2 hu) o ho
    have hb := offendingByte_of_opcode ho
    refine ⟨_, step_eq_runDatapath ha ho, ?_, fun h => absurd h hu, fun c hc => ?_⟩
    · cases hf : firstInvalid (registerBytes o.format s.operand1 s.operand2) with
      | none =>
        refine iff_of_false ?_ (not_or.2 ⟨hu, by simp [hb, hf]⟩)
        rw [runDatapath_run_of_valid _ hf]
        split <;> simp
      | some c => exact iff_of_true (by rw [runDatapath_of_invalid _ hf]; rfl) (.inr (by simp [hb, hf]))
    · rw [runDatapath_of_invalid _ (hb.symm.trans hc), fetched_opcodeByte, show s.mem.read s.pc = o.byte from ho]
      exact faultTaken_raiseFault s.fetched _ _ _

/-- Settles O42: the status output shows the number of the record's reason. -/
theorem statusOutputNumbersFaults : Obligations.StatusOutputNumbersFaults :=
  ⟨rfl, rfl, rfl, rfl, fun s h => by simp [State.status, h], fun s f h => by simp [State.status, h]⟩

end Sys2Proof.Machine
end

section
/-! SUPPORT. What reset leaves in the registers, and the driver's run (R276, R278, R279): each of the host's steps lets it go on or ends
it, so a cancelled run is as many accepted steps, and a JMP to its own address goes on for ever. -/

namespace Sys2Proof.Machine

open Sys2Proof.Claims

/-- Reset zeroes every general register (R35, R270). -/
@[simp] theorem State.resetCore_reg (s : State) (r : Reg) : s.resetCore.reg r = 0x00#8 := by cases r <;> rfl

/-- The host's step lets the run go on, when it is accepted and leaves the core running, or ends it (R53, R278, R279). -/
theorem hostStep_continues_or_ends (s : State) : ∃ t, step s = .next t ∧
    ((Accepts s ∧ t.run = .running ∧ hostStep s = some (t, .continued)) ∨
      (t.Ended ∧ ∃ o, o ≠ .continued ∧ hostStep s = some (t, o))) := by
  cases ha : s.accepts with
  | false =>
    have hs : s.Ended := by cases hr : s.run <;> simp [State.accepts, State.Ended, hr] at ha ⊢
    obtain ⟨ht, hh⟩ := terminalStateRejectsStep s hs
    exact ⟨s, ht, .inr ⟨hs, _, by decide, hh⟩⟩
  | true =>
    have hs : Accepts s := s.accepts_iff.1 ha
    obtain ⟨t, ht, he, -⟩ := acceptedStepEndsInReportedRunState s hs
    refine ⟨t, ht, ?_⟩
    obtain ⟨hr, hh⟩ | ⟨hr, hh⟩ | ⟨hr, f, -, hh⟩ := he
    · exact .inl ⟨hs, hr, hh⟩
    · exact .inr ⟨.inl hr, _, by decide, hh⟩
    · exact .inr ⟨.inr hr, _, by simp, hh⟩

/-- The outcome that ends a run is that of a step into a terminal state (R279). -/
theorem ended_of_runCalls_eq_some {n : Nat} {s t : State} {o : StepOutcome} (h : runCalls n s = (t, some o)) :
    t.Ended ∧ o ≠ .continued := by
  induction n generalizing s with
  | zero => cases h
  | succ n ih =>
    obtain ⟨u, -, ⟨-, -, hh⟩ | ⟨hu, o', ho, hh⟩⟩ := hostStep_continues_or_ends s
    · rw [runCalls_succ_of_continued n s u hh] at h
      exact ih h
    · rw [runCalls_succ_of_ended n s u o' hh ho] at h
      cases h
      exact ⟨hu, ho⟩

/-- Steps that leave the core running go on from the state after the first of them. -/
theorem stepsOn_succ_iff {n : Nat} {s t u : State} (hu : step s = .next u) :
    StepsOn (n + 1) s t ↔ Accepts s ∧ u.run = .running ∧ StepsOn n u t := by
  simp only [StepsOn, hu, Host.Outcome.next.injEq, exists_eq_left']

/-- A core that runs, runs on. -/
theorem run_eq_running_of_stepsOn {n : Nat} {s t : State} (h : StepsOn n s t) (hs : s.run = .running) : t.run = .running := by
  induction n generalizing s with
  | zero => rwa [show t = s from h]
  | succ n ih =>
    obtain ⟨-, u, -, hu, hn⟩ := h
    exact ih hn hu

/-- A run is cancelled after `n` steps exactly when `n` accepted steps leave the core running (R278). -/
theorem runCalls_eq_none_iff_stepsOn (n : Nat) (s t : State) : runCalls n s = (t, none) ↔ StepsOn n s t := by
  induction n generalizing s with
  | zero => simp [StepsOn, eq_comm]
  | succ n ih =>
    obtain ⟨u, hu, ⟨hs, hr, hh⟩ | ⟨he, o, ho, hh⟩⟩ := hostStep_continues_or_ends s
    · rw [runCalls_succ_of_continued n s u hh, ih, stepsOn_succ_iff hu]
      simp [hs, hr]
    · rw [runCalls_succ_of_ended n s u o hh ho, stepsOn_succ_iff hu]
      rcases he with hr | hr <;> simp [hr]

/-- A run that is cancelled after a step leaves the core running (R278). -/
theorem run_of_runCalls_succ_eq_none {n : Nat} {s t : State} (h : runCalls (n + 1) s = (t, none)) : t.run = .running := by
  obtain ⟨-, u, -, hr, hu⟩ := (runCalls_eq_none_iff_stepsOn (n + 1) s t).1 h
  exact run_eq_running_of_stepsOn hu hr

/-- Run-to-halt has not returned exactly when the driver's run is cancelled. -/
theorem runToHalt_eq_none_iff (n : Nat) (s : State) : runToHalt n s = none ↔ ∃ t, runCalls n s = (t, none) := by
  unfold runToHalt
  split <;> simp_all

/-- The step of a JMP to its own address is its fetch alone (R102, R190). -/
theorem step_of_jmp_self {s : State} (hs : Accepts s) (ho : s.opcodeByte = 0x60#8) (ht : s.operand1 = s.pc) :
    step s = .next s.fetched := by
  rw [step_of_opcode s .jmp (s.accepts_iff.2 hs) ho, ht]
  rfl

/-- A JMP to its own address goes on for ever: the fetch of the first step is all that a cancelled run leaves (R190, R278). -/
theorem runCalls_of_jmp_self (n : Nat) {s : State} (hs : Accepts s) (ho : s.opcodeByte = 0x60#8) (ht : s.operand1 = s.pc) :
    runCalls (n + 1) s = (s.fetched, none) := by
  rw [runCalls_eq_none_iff_stepsOn]
  induction n generalizing s with
  | zero => exact (stepsOn_succ_iff (step_of_jmp_self hs ho ht)).2 ⟨hs, rfl, rfl⟩
  | succ n ih => exact (stepsOn_succ_iff (step_of_jmp_self hs ho ht)).2 ⟨hs, rfl, ih (.inr rfl) ho ht⟩

end Sys2Proof.Machine
end

section
/-! SUPPORT. The statements on reset and on the driver's run (70_reset_and_hazards.md), each from the lemmas above. -/

namespace Sys2Proof.Machine

open Sys2Proof.Claims

/-- Settles O58: a cancelled run is as many accepted steps that leave the core running, and each step of a JMP to its own address is one,
back to its own fetch. -/
theorem cancelledRunLeavesLastCompletedStep : Obligations.CancelledRunLeavesLastCompletedStep := by
  refine ⟨runCalls_eq_none_iff_stepsOn, fun n s t h => ?_, fun n s hs ho ht => ?_⟩
  · exact ⟨run_of_runCalls_succ_eq_none h, (runToHalt_eq_none_iff _ s).2 ⟨t, h⟩⟩
  · rw [runCalls_of_jmp_self n hs ho ht, State.fetched, show s.opcodeByte = 0x60#8 from ho]

/-- Settles O53: run-to-halt answers with the step that ended the driver's run. -/
theorem runToHaltStopsOnlyAtAnEnd : Obligations.RunToHaltStopsOnlyAtAnEnd := fun n s t o h =>
  ended_of_runCalls_eq_some ((runToHalt_eq_some_iff n s t o).1 h)

/-- Settles O2: the step after reset is accepted, so it leaves in IR the byte at the PC, which is 0x00. -/
theorem firstStepAfterResetFetchesAddressZero : Obligations.FirstStepAfterResetFetchesAddressZero := fun s =>
  step_ir (hostReset s) rfl

/-- Settles O1: reset is power-on with the memory as it stands. -/
theorem resetClearsAllButMemory : Obligations.ResetClearsAllButMemory := fun s =>
  ⟨s.resetCore_pc, s.resetCore_ir, s.resetCore_reg, s.resetCore_zf, s.resetCore_sf, s.resetCore_out, s.resetCore_flt,
    s.resetCore_run, fun a => congrArg (Memory.read · a) s.resetCore_mem⟩

end Sys2Proof.Machine
end
